-- ==== Sys2Proof/Word.lean ====
section
/-! DEFINITION. The value types of CORE: bytes, 16-bit words, 12-bit addresses and register numbers
(spec/00_scope.md R7, R8, R11).  Every value is unsigned (R8). -/

namespace Sys2Proof

/-- A byte of memory, a general register, a timer (R20, R29, R30, R51). -/
abbrev Byte := BitVec 8

/-- A 16-bit value: an instruction word, `I`, `pc`, a return address (R23, R25, R27, R36). -/
abbrev Word := BitVec 16

/-- The address-12 field `NNN` of an instruction word (R71). -/
abbrev Addr12 := BitVec 12

/-- A register-X or register-Y index: one of the sixteen registers V0 to VF (R20, R72). -/
abbrev RegIndex := Fin 16

/-- The row count `N` of DXYN, 0 to 15 (R72). -/
abbrev RowCount := Fin 16

/-- A key index, 0 to 15 (R35). -/
abbrev KeyIndex := Fin 16

/-- The register number of VF, the flag register (R21). -/
abbrev vfIndex : RegIndex := 15

end Sys2Proof
end

