-- ==== Sys2Proof/Syntax.lean ====
section
/-! DEFINITION. The instruction set as syntax: one constructor per row of spec/opcode_table.json
(spec/30_encoding.md R82, 35 operations), and the names under which a decoder turns words away. -/

namespace Sys2Proof

/-- The 35 operations of the base CHIP-8 set (R82), in the order of spec/opcode_table.json. -/
inductive Instr where
  /-- `0NNN` but for 00E0 and 00EE: SYS NNN, the legacy no-op (R100). -/
  | sys (nnn : Addr12)
  /-- `00E0`: CLS (R150). -/
  | cls
  /-- `00EE`: RET (R101). -/
  | ret
  /-- `1NNN`: JP NNN (R102). -/
  | jp (nnn : Addr12)
  /-- `2NNN`: CALL NNN (R103). -/
  | call (nnn : Addr12)
  /-- `3XNN`: SE VX, NN (R104). -/
  | seImm (x : RegIndex) (nn : Byte)
  /-- `4XNN`: SNE VX, NN (R105). -/
  | sneImm (x : RegIndex) (nn : Byte)
  /-- `5XY0`: SE VX, VY (R106). -/
  | seReg (x y : RegIndex)
  /-- `6XNN`: LD VX, NN (R120). -/
  | ldImm (x : RegIndex) (nn : Byte)
  /-- `7XNN`: ADD VX, NN (R121). -/
  | addImm (x : RegIndex) (nn : Byte)
  /-- `8XY0`: LD VX, VY (R131). -/
  | ldReg (x y : RegIndex)
  /-- `8XY1`: OR VX, VY (R132). -/
  | orReg (x y : RegIndex)
  /-- `8XY2`: AND VX, VY (R133). -/
  | andReg (x y : RegIndex)
  /-- `8XY3`: XOR VX, VY (R134). -/
  | xorReg (x y : RegIndex)
  /-- `8XY4`: ADD VX, VY (R135). -/
  | addReg (x y : RegIndex)
  /-- `8XY5`: SUB VX, VY (R136). -/
  | subReg (x y : RegIndex)
  /-- `8XY6`: SHR VX, VY (R137). -/
  | shrReg (x y : RegIndex)
  /-- `8XY7`: SUBN VX, VY (R138). -/
  | subnReg (x y : RegIndex)
  /-- `8XYE`: SHL VX, VY (R139). -/
  | shlReg (x y : RegIndex)
  /-- `9XY0`: SNE VX, VY (R107). -/
  | sneReg (x y : RegIndex)
  /-- `ANNN`: LD I, NNN (R122). -/
  | ldI (nnn : Addr12)
  /-- `BNNN`: JP V0, NNN (R108). -/
  | jpV0 (nnn : Addr12)
  /-- `CXNN`: RND VX, NN (R123). -/
  | rnd (x : RegIndex) (nn : Byte)
  /-- `DXYN`: DRW VX, VY, N (R151). -/
  | drw (x y : RegIndex) (n : RowCount)
  /-- `EX9E`: SKP VX (R180). -/
  | skp (x : RegIndex)
  /-- `EXA1`: SKNP VX (R181). -/
  | sknp (x : RegIndex)
  /-- `FX07`: LD VX, DT (R160). -/
  | ldVxDt (x : RegIndex)
  /-- `FX0A`: LD VX, K (R161). -/
  | ldVxK (x : RegIndex)
  /-- `FX15`: LD DT, VX (R162). -/
  | ldDtVx (x : RegIndex)
  /-- `FX18`: LD ST, VX (R163). -/
  | ldStVx (x : RegIndex)
  /-- `FX1E`: ADD I, VX (R164). -/
  | addIVx (x : RegIndex)
  /-- `FX29`: LD F, VX (R165). -/
  | ldFVx (x : RegIndex)
  /-- `FX33`: LD B, VX (R166). -/
  | ldBVx (x : RegIndex)
  /-- `FX55`: LD [I], VX, store V0 to VX (R167). -/
  | ldMemVx (x : RegIndex)
  /-- `FX65`: LD VX, [I], load V0 to VX (R168). -/
  | ldVxMem (x : RegIndex)
  deriving DecidableEq, Repr

/-- Why a decoder gives no instruction. -/
inductive DecodeError where
  /-- A word of R80's table: no handler is registered for it. -/
  | unsupported (word : Word)
  /-- Fewer than two bytes were given; an instruction is one 16-bit word (R70). -/
  | truncated
  deriving DecidableEq, Repr

end Sys2Proof
end

