-- ==== Sys2Proof/WellFormed.lean ====
section
/-! DEFINITION. Which terms of `Instr` are instructions of CORE.  The operand types already bound every
field (R72); the one condition left is that a SYS word is neither 00E0 nor 00EE, which are CLS and
RET (spec/30_encoding.md R75). -/

namespace Sys2Proof

/-- The operand of a SYS word: any address-12 but those of the words 00E0 and 00EE (R75). -/
def sysOperandOk (nnn : Addr12) : Bool :=
  nnn != 0x0E0#12 && nnn != 0x0EE#12

/-- Well-formed instructions: those that some 16-bit word stands for (R73, R75, R82). -/
def Instr.wellFormed (i : Instr) : Bool :=
  match i with
  | .sys nnn => sysOperandOk nnn
  | .cls | .ret | .jp _ | .call _ | .seImm _ _ | .sneImm _ _ | .seReg _ _ => true
  | .ldImm _ _ | .addImm _ _ | .ldReg _ _ | .orReg _ _ | .andReg _ _ | .xorReg _ _ => true
  | .addReg _ _ | .subReg _ _ | .shrReg _ _ | .subnReg _ _ | .shlReg _ _ | .sneReg _ _ => true
  | .ldI _ | .jpV0 _ | .rnd _ _ | .drw _ _ _ | .skp _ | .sknp _ => true
  | .ldVxDt _ | .ldVxK _ | .ldDtVx _ | .ldStVx _ | .addIVx _ | .ldFVx _ | .ldBVx _ => true
  | .ldMemVx _ | .ldVxMem _ => true

end Sys2Proof
end

