-- ==== Sys2Proof/Config.lean ====
section
/-! DEFINITION. The parameters of CORE that an implementation fixes for a run (spec/00_scope.md R6,
spec/10_state.md R42), and the one value the spec leaves free: the random byte of CXNN. -/

namespace Sys2Proof

/-- `SHIFT_SOURCE`: which register 8XY6 and 8XYE shift (R6, R137, R139). -/
inductive ShiftSource where
  | vx
  | vy
  deriving DecidableEq, Repr

/-- `IADD_MODULUS`: the modulus of FX1E (R6, R164). -/
inductive IAddModulus where
  | m4096
  | m32768
  | m65536
  deriving DecidableEq, Repr

/-- One row of bytes per glyph: 16 glyphs of 5 bytes (R6, R34). -/
abbrev FontTable := Vector (Vector Byte 5) 16

/-- The parameters in capitals of R6, fixed for a run (R42). -/
structure Config where
  /-- `STACK_CAPACITY`, at least 16 (R6, R27). -/
  stackCapacity : Nat
  /-- `FONT`, the 80 font bytes (R6, R34). -/
  font : FontTable
  /-- `SHIFT_SOURCE`. -/
  shiftSource : ShiftSource
  /-- `IADD_MODULUS`. -/
  iaddModulus : IAddModulus
  deriving DecidableEq, Repr

/-- A configuration R6 allows: `STACK_CAPACITY` must be at least 16. -/
def Config.wellFormed (c : Config) : Bool := decide (16 ≤ c.stackCapacity)

/-- `RND` (R6, R123): the byte of the n-th draw, "any value 0 to 255, under no law".
A FREE VALUE (notes/assumptions/3.md): it has no body, so nothing can be proved of it. -/
opaque Config.freeByte : Nat → Byte

end Sys2Proof
end

