-- ==== Sys2Proof/Machine/Parameters.lean ====
section
/-! DEFINITION. The default values of the parameters of spec/00_scope.md R6. -/

namespace Sys2Proof

/-- The number an `IADD_MODULUS` stands for (R6). -/
def IAddModulus.toNat (m : IAddModulus) : Nat :=
  match m with
  | .m4096 => 4096
  | .m32768 => 32768
  | .m65536 => 65536

namespace Machine

/-- The default `FONT`, glyph `d` in place `d`, row 0 first (R34).
The bytes are the spec's, "from general knowledge, not in source" (notes/assumptions/2.md). -/
def defaultFont : FontTable :=
  #v[#v[0xF0#8, 0x90#8, 0x90#8, 0x90#8, 0xF0#8],
     #v[0x20#8, 0x60#8, 0x20#8, 0x20#8, 0x70#8],
     #v[0xF0#8, 0x10#8, 0xF0#8, 0x80#8, 0xF0#8],
     #v[0xF0#8, 0x10#8, 0xF0#8, 0x10#8, 0xF0#8],
     #v[0x90#8, 0x90#8, 0xF0#8, 0x10#8, 0x10#8],
     #v[0xF0#8, 0x80#8, 0xF0#8, 0x10#8, 0xF0#8],
     #v[0xF0#8, 0x80#8, 0xF0#8, 0x90#8, 0xF0#8],
     #v[0xF0#8, 0x10#8, 0x20#8, 0x40#8, 0x40#8],
     #v[0xF0#8, 0x90#8, 0xF0#8, 0x90#8, 0xF0#8],
     #v[0xF0#8, 0x90#8, 0xF0#8, 0x10#8, 0xF0#8],
     #v[0xF0#8, 0x90#8, 0xF0#8, 0x90#8, 0x90#8],
     #v[0xE0#8, 0x90#8, 0xE0#8, 0x90#8, 0xE0#8],
     #v[0xF0#8, 0x80#8, 0x80#8, 0x80#8, 0xF0#8],
     #v[0xE0#8, 0x90#8, 0x90#8, 0x90#8, 0xE0#8],
     #v[0xF0#8, 0x80#8, 0xF0#8, 0x80#8, 0xF0#8],
     #v[0xF0#8, 0x80#8, 0xF0#8, 0x80#8, 0x80#8]]

/-- The defaults of R6: 16 stack slots, the table of R34, `SHIFT_SOURCE = VX`, `IADD_MODULUS = 65536`
(DESIGN CHOICE of the spec, D5 to D8; notes/assumptions/1.md). -/
def defaultConfig : Config :=
  { stackCapacity := 16
    font := defaultFont
    shiftSource := .vx
    iaddModulus := .m65536 }

end Machine

end Sys2Proof
end

