-- ==== Sys2Proof/Machine/State.lean ====
section
/-! DEFINITION. The state of CORE as plain data (spec/10_state.md R20 to R43), the reasons a step or a
host action can stop, and the state after reset (R43, spec/70_reset_and_hazards.md R230, R231). -/

namespace Sys2Proof.Machine

/-- The run modes (R37, R209). -/
inductive Mode where
  | running
  | paused
  | halted
  deriving DecidableEq, Repr

/-- The five kinds of fault the spec gives CORE, with what each records beside the word (R200).
Each is TAKEN (R203): it leads to a next state in `Mode.halted`, never to an outcome `fault`. -/
inductive Trap where
  /-- The word has no registered handler (R80, R201). -/
  | unsupportedInstruction
  /-- CALL with the stack at capacity (R103). -/
  | stackOverflow
  /-- RET with the stack empty (R101). -/
  | stackUnderflow
  /-- A program-counter write or a memory access above 0xFFF, with the offending address (R53, R85). -/
  | outOfRangeAddress (addr : Nat)
  /-- A key skip with `V[X] > 15`, with the value of VX (R180, R181). -/
  | keyIndexOutOfRange (key : Byte)
  deriving DecidableEq, Repr

/-- The fault record `(kind, word, addr/key, at)` (R38, R203). -/
structure FaultRecord where
  /-- The kind, and with it `addr` or `key`. -/
  kind : Trap
  /-- `IR` of the step; absent for a fetch fault (R200). -/
  word : Option Word
  /-- `at`: the program counter at the start of the step. -/
  startPc : Word
  deriving DecidableEq, Repr

/-- Why the machine stops without a next state.  The spec's own five faults are not here: they are
taken (see `Trap`). -/
inductive Fault where
  /-- CALL or RET names a stack slot that the state does not hold: `SP` is beyond the slots
  S[1] to S[STACK_CAPACITY] (R27, R28).  Raised by execCall and execRet, only in states no run
  reaches (`State.Inv` rules them out).  SAFE: the spec gives such a state no effect
  (notes/assumptions/13.md). -/
  | noSuchStackSlot
  deriving DecidableEq, Repr

/-- Why a step or a host action is not accepted. -/
inductive Refusal where
  /-- No meaning for the instruction; raised by no arm of this model.  Safe. -/
  | notModelled (mnemonic : String)
  /-- A step requested in `Halted`: "Halted is terminal; no further cycles execute" (R84, R209,
  R216).  Raised by `step` and the step actions.  Safe. -/
  | halted
  /-- The action Step requested while `Paused`: only SingleStep runs a step there (R210, R216).
  Raised by `step` and the action Step.  Safe. -/
  | paused
  /-- SingleStep or Resume requested while `Running`: R216 allows them in `Paused` only
  (notes/assumptions/12.md).  Safe. -/
  | notPaused
  /-- Pause requested while `Paused`: R216 allows it in `Running` only (notes/assumptions/12.md).
  Safe. -/
  | notRunning
  /-- A step requested on a machine whose program image was refused for its length: "the load is refused;
  the machine does not start" (R237; notes/assumptions/23.md).  Raised by the step actions.  Safe. -/
  | imageTooLarge
  /-- LoadProgram a second time, the first image accepted or refused, or after the first step (R216, R237;
  notes/assumptions/10.md, 23.md).  Safe. -/
  | loadClosed
  deriving DecidableEq, Repr

/-- Memory: (address, byte) pairs; an unlisted address reads as its reset content
(notes/assumptions/6.md). -/
abbrev Memory := List Host.Cell

/-- The display buffer: row `y` of 32, in it cell `x` of 64 (R31). -/
abbrev Display := Vector (Vector Bool 64) 32

/-- The state of CORE.  INVENTORY.md lists each field with its rule and reset value. -/
structure State where
  /-- V[0] to V[15] (R20, R21). -/
  v : Vector Byte 16
  /-- The index register `I` (R25). -/
  regI : Word
  /-- The program counter (R23). -/
  pc : Word
  /-- The stack pointer: how many return addresses the stack holds (R28). -/
  sp : Nat
  /-- The slots S[1] to S[STACK_CAPACITY], S[k] in place k - 1 (R27). -/
  stack : List Word
  /-- The delay timer (R29). -/
  dt : Byte
  /-- The sound timer (R30). -/
  st : Byte
  /-- The display buffer (R31). -/
  disp : Display
  /-- The redraw-requested flag (R32). -/
  redraw : Bool
  /-- The 4096 bytes of memory (R33, R50). -/
  mem : Memory
  /-- The key latch, true meaning pressed (R35). -/
  key : Vector Bool 16
  /-- The current instruction register (R36). -/
  ir : Word
  /-- The run mode (R37). -/
  mode : Mode
  /-- The fault record (R38). -/
  fault : Option FaultRecord
  /-- The parameters of R6, fixed for a run (R42; notes/assumptions/1.md). -/
  cfg : Config
  /-- The model's own: how many random bytes CXNN has drawn (R123; notes/assumptions/3.md). -/
  draws : Nat
  /-- The model's own: program load is still allowed (R216, R237; notes/assumptions/10.md). -/
  loadOpen : Bool
  /-- The model's own: a program image was refused for its length, so the machine does not start (R237;
  notes/assumptions/23.md). -/
  loadRefused : Bool
  deriving DecidableEq, Repr

/-- The state after reset of the machine configured as `c` (R43, R231). -/
def State.resetWith (c : Config) : State :=
  { v := Vector.replicate 16 0#8
    regI := 0#16
    pc := 0x200#16
    sp := 0
    stack := List.replicate c.stackCapacity 0#16
    dt := 0#8
    st := 0#8
    disp := Vector.replicate 32 (Vector.replicate 64 false)
    redraw := false
    mem := []
    key := Vector.replicate 16 false
    ir := 0#16
    mode := .running
    fault := none
    cfg := c
    draws := 0
    loadOpen := true
    loadRefused := false }

/-- The state after reset with the defaults of R6 (R43). -/
def State.reset : State := State.resetWith defaultConfig

end Sys2Proof.Machine
end

