-- ==== Sys2Proof/Machine/Ops.lean ====
section
/-! DEFINITION. The named operations every meaning is built from: registers, stack, memory (spec/20_memory.md
R53 to R56), the checked program-counter write (spec/30_encoding.md R85), the display cell, and
taking a fault (spec/60_exceptions.md R203). -/

namespace Sys2Proof.Machine

/-- `ADDR_MAX`, the highest legal address (R6). -/
def addrMax : Nat := 0xFFF

/-! ### General registers (R9, R20) -/

/-- `V[i]`. -/
def State.reg (s : State) (x : RegIndex) : Byte := s.v.get x

/-- `V[i] <- b`. -/
def State.setReg (s : State) (x : RegIndex) (b : Byte) : State :=
  { s with v := s.v.set x.val b x.isLt }

/-- `V[k] <- b₀, V[k+1] <- b₁, …` for the bytes of a list, in that order (R168). -/
def State.setRegsFrom (s : State) (k : Nat) (bytes : List Byte) : State :=
  match bytes with
  | [] => s
  | b :: rest => State.setRegsFrom (s.setReg (Fin.ofNat 16 k) b) (k + 1) rest

/-! ### The stack (R27, R28) -/

/-- `S[k]`, for a slot the state holds: `1 ≤ k ≤ STACK_CAPACITY`. -/
def State.slot (s : State) (k : Nat) : Option Word :=
  if k = 0 then none else s.stack[k - 1]?

/-- `S[k] <- w`, for a slot the state holds. -/
def State.setSlot (s : State) (k : Nat) (w : Word) : Option State :=
  if 1 ≤ k ∧ k ≤ s.stack.length then some { s with stack := s.stack.set (k - 1) w } else none

/-! ### Memory contents -/

/-- What an unlisted address reads as: its reset content, the font at 0x000 to 0x04F with glyph `d` at
`5 * d` (R34), and 0 elsewhere (R43; notes/assumptions/5.md, 6.md). -/
def background (font : FontTable) (a : Nat) : Byte :=
  if h : a < 80 then (font[a / 5])[a % 5] else 0#8

/-- The byte listed for an address, if one is. -/
def Memory.lookup (m : Memory) (a : Nat) : Option Byte :=
  match m with
  | [] => none
  | (c, b) :: rest => if c = a then some b else Memory.lookup rest a

/-- The byte memory holds at an address. -/
def Memory.read (font : FontTable) (m : Memory) (a : Nat) : Byte :=
  (Memory.lookup m a).getD (background font a)

/-- Memory with address `a` unlisted. -/
def Memory.erase (m : Memory) (a : Nat) : Memory :=
  match m with
  | [] => []
  | (c, x) :: rest => if c = a then Memory.erase rest a else (c, x) :: Memory.erase rest a

/-- Memory with `(a, b)` listed before the first higher address. -/
def Memory.insert (m : Memory) (a : Nat) (b : Byte) : Memory :=
  match m with
  | [] => [(a, b)]
  | (c, x) :: rest => if a < c then (a, b) :: (c, x) :: rest else (c, x) :: Memory.insert rest a b

/-- Memory with byte `b` at address `a`: the address is unlisted where `b` is its reset content. -/
def Memory.write (font : FontTable) (m : Memory) (a : Nat) (b : Byte) : Memory :=
  if b = background font a then Memory.erase m a else Memory.insert (Memory.erase m a) a b

/-- The canonical form from address `lo` on: addresses rise strictly, none is above 0xFFF, and no entry
is the address's reset content. -/
def Memory.canonicalFrom (font : FontTable) (lo : Nat) (m : Memory) : Bool :=
  match m with
  | [] => true
  | (c, b) :: rest =>
    decide (lo ≤ c) && decide (c ≤ addrMax) && decide (b ≠ background font c) &&
      Memory.canonicalFrom font (c + 1) rest

/-- The canonical form of memory. -/
def Memory.wf (font : FontTable) (m : Memory) : Bool := Memory.canonicalFrom font 0 m

/-! ### Memory accesses (R53 to R56) -/

/-- The byte of memory at `a`, unchecked: what the read of an address gives where it gives a byte. -/
def State.byteAt (s : State) (a : Nat) : Byte := Memory.read s.cfg.font s.mem a

/-- `mem[a] <- b`, unchecked. -/
def State.putByte (s : State) (a : Nat) (b : Byte) : State :=
  { s with mem := Memory.write s.cfg.font s.mem a b }

/-- `MemRead(a, 1)` (R53). -/
def memRead (s : State) (a : Nat) : Except Trap Byte :=
  if a > addrMax then .error (.outOfRangeAddress a) else .ok (s.byteAt a)

/-- `MemWrite(a, 1, b)` (R54). -/
def memWrite (s : State) (a : Nat) (b : Byte) : Except Trap State :=
  if a > addrMax then .error (.outOfRangeAddress a) else .ok (s.putByte a b)

/-- `MemRead` at `a, a+1, …, a+n-1`, lowest address first, so that the first fault is the lowest bad
address (R56). -/
def memReadList (s : State) (a : Nat) (n : Nat) : Except Trap (List Byte) :=
  match n with
  | 0 => .ok []
  | k + 1 => do
    let b ← memRead s a
    let rest ← memReadList s (a + 1) k
    return b :: rest

/-- `MemWrite` of the bytes of a list at `a, a+1, …`, lowest address first (R56). -/
def memWriteList (s : State) (a : Nat) (bytes : List Byte) : Except Trap State :=
  match bytes with
  | [] => .ok s
  | b :: rest => do
    let t ← memWrite s a b
    memWriteList t (a + 1) rest

/-! ### The program counter (R85, R87) -/

/-- `SetPC(a)`: the only way an instruction writes `pc` (R85). -/
def setPc (s : State) (a : Nat) : Except Trap State :=
  if a > addrMax then .error (.outOfRangeAddress a) else .ok { s with pc := BitVec.ofNat 16 a }

/-- A skip: `SetPC(pc + 2)` when the condition holds (R104 to R107, R180, R181). -/
def skipIf (c : Bool) (s : State) : Except Trap State :=
  if c then setPc s (s.pc.toNat + 2) else .ok s

/-- What a step does before it decodes: `IR <- w` (R89), then `SetPC(pc + 2)` (R87).  The first step also
ends the time in which a program may be loaded (R216). -/
def beginStep (s : State) (w : Word) : Except Trap State :=
  setPc { s with ir := w, loadOpen := false } (s.pc.toNat + 2)

/-! ### Taking a fault (R203) -/

/-- Fault entry, from the state at the START of the step: nothing changes but `Mode` and the fault record
(R203).  The spec gives no return from it (R205). -/
def takeFault (start : State) (word : Option Word) (k : Trap) : State :=
  { start with mode := .halted, fault := some { kind := k, word := word, startPc := start.pc } }

/-- The state a handler sees, with the step's advance of `pc` undone (R87). -/
def undoAdvance (s : State) : State := { s with pc := s.pc - 2#16 }

/-- A fault raised by a handler: `s` is the state the handler was entered with, so `pc` is the
instruction's address plus 2 (R24) and `IR` its word (R36).  The step puts back the old `IR`
(`settle`; notes/assumptions/8.md). -/
def raise (s : State) (k : Trap) : State := takeFault (undoAdvance s) (some s.ir) k

/-- A handler's answer as an outcome: its state, or the fault it raises taken. -/
def deliver (s : State) (r : Except Trap State) : Host.Outcome State Fault Refusal :=
  match r with
  | .ok t => .next t
  | .error k => .next (raise s k)

/-- The end of a step: where the handler took a fault, every write of the step is discarded, so that only
`Mode` and the fault record differ from the state at the start (R203). -/
def settle (start : State) (o : Host.Outcome State Fault Refusal) :
    Host.Outcome State Fault Refusal :=
  match o with
  | .next t =>
    if t.mode = .halted then .next { start with mode := t.mode, fault := t.fault } else .next t
  | .fault r => .fault r
  | .refused r => .refused r

/-! ### The display (R31) and the key latch (R35) -/

/-- `Disp[x][y]`. -/
def Display.cell (d : Display) (x : Fin 64) (y : Fin 32) : Bool := (d.get y).get x

/-- `Disp[x][y] <- b`. -/
def Display.setCell (d : Display) (x : Fin 64) (y : Fin 32) (b : Bool) : Display :=
  d.set y.val ((d.get y).set x.val b x.isLt) y.isLt

/-- The display with every cell 0. -/
def Display.clear : Display := Vector.replicate 32 (Vector.replicate 64 false)

/-- `Key[k]`. -/
def State.keyDown (s : State) (k : KeyIndex) : Bool := s.key.get k

/-- `Key[k] <- p`. -/
def State.putKey (s : State) (k : KeyIndex) (p : Bool) : State :=
  { s with key := s.key.set k.val p k.isLt }

/-- The lowest pressed key, if any is (R161). -/
def State.lowestKey (s : State) : Option KeyIndex := (List.finRange 16).find? s.keyDown

end Sys2Proof.Machine
end

