-- ==== Sys2Proof/Machine/Flags.lean ====
section
/-! DEFINITION. Every value an instruction leaves in VF as a flag (spec/43_alu.md R130 to R140,
spec/44_display.md R152).  Each is computed from the operands read before any write (R130). -/

namespace Sys2Proof.Machine

/-- A flag as the byte VF receives. -/
def flagByte (b : Bool) : Byte := if b then 1#8 else 0#8

/-- 8XY4: the carry, `a + b ≥ 256` (R135). -/
def carryFlag (a b : Byte) : Byte := flagByte (decide (256 ≤ a.toNat + b.toNat))

/-- 8XY5, 8XY7: no borrow in `a - b`, `a ≥ b` (R136, R138). -/
def noBorrowFlag (a b : Byte) : Byte := flagByte (decide (b.toNat ≤ a.toNat))

/-- 8XY6: bit 0 of the source before the shift (R137). -/
def shiftedOutRight (a : Byte) : Byte := a &&& 1#8

/-- 8XYE: bit 7 of the source before the shift (R139). -/
def shiftedOutLeft (a : Byte) : Byte := a >>> 7

/-- DXYN: the collision (R151, R152). -/
def collisionFlag (hit : Bool) : Byte := flagByte hit

/-- `V[X] <- result`, then `V[15] <- flag`, so that the flag stays where X = F (R130). -/
def State.setResultAndFlag (s : State) (x : RegIndex) (result flag : Byte) : State :=
  (s.setReg x result).setReg vfIndex flag

end Sys2Proof.Machine
end

