-- ==== Sys2Proof/Machine/Operands.lean ====
section
/-! DEFINITION. The operand forms: results of the byte operations (spec/43_alu.md), the shift source
(R137), the addresses instructions compute (spec/20_memory.md R55), decimal digits (R166) and the
cells a sprite covers (spec/44_display.md R151). -/

namespace Sys2Proof.Machine

/-- `(a + b) mod 256` (R121, R135). -/
def sumByte (a b : Byte) : Byte := BitVec.ofNat 8 (a.toNat + b.toNat)

/-- `(a - b) mod 256` (R136, R138). -/
def differenceByte (a b : Byte) : Byte := BitVec.ofInt 8 ((a.toNat : Int) - (b.toNat : Int))

/-- `SHIFT_SOURCE`: the operand of 8XY6 and 8XYE (R137, R139). -/
def State.shiftOperand (s : State) (x y : RegIndex) : Byte :=
  match s.cfg.shiftSource with
  | .vx => s.reg x
  | .vy => s.reg y

/-- The address `I + k`, exact and never masked (R55). -/
def State.addressAt (s : State) (k : Nat) : Nat := s.regI.toNat + k

/-- The target of BNNN: `NNN + V[0]`, exact (R108). -/
def State.indexedTarget (s : State) (nnn : Addr12) : Nat := nnn.toNat + (s.reg 0).toNat

/-- `(I + V[X]) mod IADD_MODULUS` (R164). -/
def State.indexSum (s : State) (x : RegIndex) : Word :=
  BitVec.ofNat 16 ((s.regI.toNat + (s.reg x).toNat) % s.cfg.iaddModulus.toNat)

/-- `V[X] * 5` (R165). -/
def glyphAddress (b : Byte) : Word := BitVec.ofNat 16 (b.toNat * 5)

/-- The three decimal digits of a byte, hundreds first (R166). -/
def decimalDigits (b : Byte) : List Byte :=
  [BitVec.ofNat 8 (b.toNat / 100), BitVec.ofNat 8 (b.toNat / 10 % 10), BitVec.ofNat 8 (b.toNat % 10)]

/-- `V[0]` to `V[X]` (R167, C7). -/
def State.regsUpTo (s : State) (x : RegIndex) : List Byte := s.v.toList.take (x.val + 1)

/-! ### Sprites (R151) -/

/-- The display and the collision so far. -/
abbrev Canvas := Display × Bool

/-- One sprite bit on one cell: a collision if bit and cell are 1, then XOR. -/
def drawBit (x : Fin 64) (y : Fin 32) (bit : Bool) (c : Canvas) : Canvas :=
  (c.1.setCell x y (xor (c.1.cell x y) bit), c.2 || (bit && c.1.cell x y))

/-- The column of bit `b`: `(x0 + b) mod 64`. -/
def spriteColumn (x0 : Byte) (b : Nat) : Fin 64 := Fin.ofNat 64 (x0.toNat + b)

/-- The row of sprite row `r`: `(y0 + r) mod 32`. -/
def spriteRow (y0 : Byte) (r : Nat) : Fin 32 := Fin.ofNat 32 (y0.toNat + r)

/-- One sprite row, bits `b` to 7, most significant first. -/
def drawRowBits (x0 : Byte) (y : Fin 32) (row : Byte) (bits : List Nat) (c : Canvas) : Canvas :=
  match bits with
  | [] => c
  | b :: rest =>
    drawRowBits x0 y row rest (drawBit (spriteColumn x0 b) y (row.getLsbD (7 - b)) c)

/-- Sprite rows `r`, `r + 1`, … -/
def drawRows (x0 y0 : Byte) (r : Nat) (rows : List Byte) (c : Canvas) : Canvas :=
  match rows with
  | [] => c
  | row :: rest =>
    drawRows x0 y0 (r + 1) rest (drawRowBits x0 (spriteRow y0 r) row [0, 1, 2, 3, 4, 5, 6, 7] c)

/-- The display after a sprite, and the flag. -/
def State.withSprite (s : State) (x0 y0 : Byte) (rows : List Byte) : State :=
  let c := drawRows x0 y0 0 rows (s.disp, false)
  { s.setReg vfIndex (collisionFlag c.2) with disp := c.1, redraw := true }

end Sys2Proof.Machine
end

