-- ==== Sys2Proof/Machine/Alu.lean ====
section
/-! DEFINITION. The class-8 instructions (spec/43_alu.md R130 to R139).  Both operands are read from the
state the instruction starts with; the flag is written last (R130). -/

namespace Sys2Proof.Machine

/-- 8XY0, LD VX, VY (R131). -/
def execLdReg (x y : RegIndex) (s : State) : Host.Outcome State Fault Refusal :=
  .next (s.setReg x (s.reg y))

/-- 8XY1, OR VX, VY (R132). -/
def execOrReg (x y : RegIndex) (s : State) : Host.Outcome State Fault Refusal :=
  .next (s.setReg x (s.reg x ||| s.reg y))

/-- 8XY2, AND VX, VY (R133). -/
def execAndReg (x y : RegIndex) (s : State) : Host.Outcome State Fault Refusal :=
  .next (s.setReg x (s.reg x &&& s.reg y))

/-- 8XY3, XOR VX, VY (R134). -/
def execXorReg (x y : RegIndex) (s : State) : Host.Outcome State Fault Refusal :=
  .next (s.setReg x (s.reg x ^^^ s.reg y))

/-- 8XY4, ADD VX, VY (R135). -/
def execAddReg (x y : RegIndex) (s : State) : Host.Outcome State Fault Refusal :=
  .next (s.setResultAndFlag x (sumByte (s.reg x) (s.reg y)) (carryFlag (s.reg x) (s.reg y)))

/-- 8XY5, SUB VX, VY (R136). -/
def execSubReg (x y : RegIndex) (s : State) : Host.Outcome State Fault Refusal :=
  .next (s.setResultAndFlag x (differenceByte (s.reg x) (s.reg y))
    (noBorrowFlag (s.reg x) (s.reg y)))

/-- 8XY6, SHR VX, VY (R137). -/
def execShrReg (x y : RegIndex) (s : State) : Host.Outcome State Fault Refusal :=
  .next (s.setResultAndFlag x (s.shiftOperand x y >>> 1) (shiftedOutRight (s.shiftOperand x y)))

/-- 8XY7, SUBN VX, VY (R138). -/
def execSubnReg (x y : RegIndex) (s : State) : Host.Outcome State Fault Refusal :=
  .next (s.setResultAndFlag x (differenceByte (s.reg y) (s.reg x))
    (noBorrowFlag (s.reg y) (s.reg x)))

/-- 8XYE, SHL VX, VY (R139). -/
def execShlReg (x y : RegIndex) (s : State) : Host.Outcome State Fault Refusal :=
  .next (s.setResultAndFlag x (s.shiftOperand x y <<< 1) (shiftedOutLeft (s.shiftOperand x y)))

end Sys2Proof.Machine
end

