-- ==== Sys2Proof/Machine/ControlFlow.lean ====
section
/-! DEFINITION. Control-flow instructions (spec/41_control_flow.md R100 to R108).  Each meaning runs with
`pc` already at the instruction's address plus 2 (R24). -/

namespace Sys2Proof.Machine

/-- SYS NNN: nothing; the operand is ignored (R100). -/
def execSys (_nnn : Addr12) (s : State) : Host.Outcome State Fault Refusal := .next s

/-- RET (R101). -/
def execRet (s : State) : Host.Outcome State Fault Refusal :=
  if s.sp = 0 then .next (raise s .stackUnderflow)
  else
    match s.slot s.sp with
    | none => .fault .noSuchStackSlot
    | some target =>
      deliver s ((setPc s target.toNat).map fun t => { t with sp := t.sp - 1 })

/-- JP NNN (R102). -/
def execJp (nnn : Addr12) (s : State) : Host.Outcome State Fault Refusal :=
  deliver s (setPc s nnn.toNat)

/-- CALL NNN (R103): `SP` is counted up before the store of the advanced `pc`. -/
def execCall (nnn : Addr12) (s : State) : Host.Outcome State Fault Refusal :=
  if s.sp = s.cfg.stackCapacity then .next (raise s .stackOverflow)
  else
    match { s with sp := s.sp + 1 }.setSlot (s.sp + 1) s.pc with
    | none => .fault .noSuchStackSlot
    | some t => deliver s (setPc t nnn.toNat)

/-- SE VX, NN (R104). -/
def execSeImm (x : RegIndex) (nn : Byte) (s : State) : Host.Outcome State Fault Refusal :=
  deliver s (skipIf (s.reg x == nn) s)

/-- SNE VX, NN (R105). -/
def execSneImm (x : RegIndex) (nn : Byte) (s : State) : Host.Outcome State Fault Refusal :=
  deliver s (skipIf (s.reg x != nn) s)

/-- SE VX, VY (R106). -/
def execSeReg (x y : RegIndex) (s : State) : Host.Outcome State Fault Refusal :=
  deliver s (skipIf (s.reg x == s.reg y) s)

/-- SNE VX, VY (R107). -/
def execSneReg (x y : RegIndex) (s : State) : Host.Outcome State Fault Refusal :=
  deliver s (skipIf (s.reg x != s.reg y) s)

/-- JP V0, NNN (R108): the exact sum, not masked; `I` is not written (C1). -/
def execJpV0 (nnn : Addr12) (s : State) : Host.Outcome State Fault Refusal :=
  deliver s (setPc s (s.indexedTarget nnn))

end Sys2Proof.Machine
end

