-- ==== Sys2Proof/Machine/Drawing.lean ====
section
/-! DEFINITION. The display instructions (spec/44_display.md R150 to R152). -/

namespace Sys2Proof.Machine

/-- CLS: every cell 0, `Redraw` set (R150). -/
def execCls (s : State) : Host.Outcome State Fault Refusal :=
  .next { s with disp := Display.clear, redraw := true }

/-- DRW VX, VY, N (R151): the coordinates and the rows are read before VF is written. -/
def execDrw (x y : RegIndex) (n : RowCount) (s : State) : Host.Outcome State Fault Refusal :=
  deliver s
    ((memReadList s (s.addressAt 0) n.val).map fun rows => s.withSprite (s.reg x) (s.reg y) rows)

end Sys2Proof.Machine
end

