-- ==== Sys2Proof/Machine/KeySkip.lean ====
section
/-! DEFINITION. The key skips (spec/46_key_skip.md R180, R181).  Neither clears the key it tests. -/

namespace Sys2Proof.Machine

/-- `k <- V[X]` with its range check, then the flag of key `k` (R180, R181). -/
def keyQuery (x : RegIndex) (s : State) : Except Trap Bool :=
  if h : (s.reg x).toNat < 16 then .ok (s.keyDown ⟨(s.reg x).toNat, h⟩)
  else .error (.keyIndexOutOfRange (s.reg x))

/-- EX9E, SKP VX (R180). -/
def execSkp (x : RegIndex) (s : State) : Host.Outcome State Fault Refusal :=
  deliver s ((keyQuery x s).bind fun down => skipIf down s)

/-- EXA1, SKNP VX (R181). -/
def execSknp (x : RegIndex) (s : State) : Host.Outcome State Fault Refusal :=
  deliver s ((keyQuery x s).bind fun down => skipIf (!down) s)

end Sys2Proof.Machine
end

