-- ==== Sys2Proof/Machine/RegisterImmediate.lean ====
section
/-! DEFINITION. Register and immediate instructions (spec/42_register_immediate.md R120 to R123). -/

namespace Sys2Proof.Machine

/-- LD VX, NN (R120). -/
def execLdImm (x : RegIndex) (nn : Byte) (s : State) : Host.Outcome State Fault Refusal :=
  .next (s.setReg x nn)

/-- ADD VX, NN: modulo 256, no flag (R121). -/
def execAddImm (x : RegIndex) (nn : Byte) (s : State) : Host.Outcome State Fault Refusal :=
  .next (s.setReg x (sumByte (s.reg x) nn))

/-- LD I, NNN (R122). -/
def execLdI (nnn : Addr12) (s : State) : Host.Outcome State Fault Refusal :=
  .next { s with regI := nnn.setWidth 16 }

/-- RND VX, NN: a draw under the mask (R123).  The draw is the free value `Config.freeByte` of the
counter `draws` (notes/assumptions/3.md). -/
def execRnd (x : RegIndex) (nn : Byte) (s : State) : Host.Outcome State Fault Refusal :=
  .next { s.setReg x (Config.freeByte s.draws &&& nn) with draws := s.draws + 1 }

end Sys2Proof.Machine
end

