-- ==== Sys2Proof/Machine/TimerKeyBlock.lean ====
section
/-! DEFINITION. The class-F instructions: timers, key wait, index and memory blocks
(spec/45_f_family.md R160 to R168). -/

namespace Sys2Proof.Machine

/-- FX07, LD VX, DT (R160). -/
def execLdVxDt (x : RegIndex) (s : State) : Host.Outcome State Fault Refusal :=
  .next (s.setReg x s.dt)

/-- FX0A, LD VX, K (R161): with no key pressed `pc` goes back to this instruction, else the lowest pressed
key is captured and its flag cleared. -/
def execLdVxK (x : RegIndex) (s : State) : Host.Outcome State Fault Refusal :=
  match s.lowestKey with
  | none => deliver s (setPc s (s.pc - 2#16).toNat)
  | some k => .next ((s.setReg x (BitVec.ofNat 8 k.val)).putKey k false)

/-- FX15, LD DT, VX (R162). -/
def execLdDtVx (x : RegIndex) (s : State) : Host.Outcome State Fault Refusal :=
  .next { s with dt := s.reg x }

/-- FX18, LD ST, VX (R163). -/
def execLdStVx (x : RegIndex) (s : State) : Host.Outcome State Fault Refusal :=
  .next { s with st := s.reg x }

/-- FX1E, ADD I, VX (R164): VF is not written. -/
def execAddIVx (x : RegIndex) (s : State) : Host.Outcome State Fault Refusal :=
  .next { s with regI := s.indexSum x }

/-- FX29, LD F, VX (R165): VX is not masked. -/
def execLdFVx (x : RegIndex) (s : State) : Host.Outcome State Fault Refusal :=
  .next { s with regI := glyphAddress (s.reg x) }

/-- FX33, LD B, VX (R166). -/
def execLdBVx (x : RegIndex) (s : State) : Host.Outcome State Fault Refusal :=
  deliver s (memWriteList s (s.addressAt 0) (decimalDigits (s.reg x)))

/-- FX55, LD [I], VX (R167). -/
def execLdMemVx (x : RegIndex) (s : State) : Host.Outcome State Fault Refusal :=
  deliver s (memWriteList s (s.addressAt 0) (s.regsUpTo x))

/-- FX65, LD VX, [I] (R168). -/
def execLdVxMem (x : RegIndex) (s : State) : Host.Outcome State Fault Refusal :=
  deliver s
    ((memReadList s (s.addressAt 0) (x.val + 1)).map fun bytes => s.setRegsFrom 0 bytes)

end Sys2Proof.Machine
end

