-- ==== Sys2Proof/Machine/Cycle.lean ====
section
/-! DEFINITION. One fetch-execute step (spec/30_encoding.md R84 to R90), on the word in memory or on a
supplied one, with the faults of a step in the order of spec/60_exceptions.md R202. -/

namespace Sys2Proof.Machine

/-- Fetch: the bytes at `pc` and `pc + 1`, big-endian (R57, R86). -/
def fetch (s : State) : Except Trap Word := do
  let hi ← memRead s s.pc.toNat
  let lo ← memRead s (s.pc.toNat + 1)
  return wordOfBytes hi lo

/-- The word of the step: the supplied one, memory not being read (R88), or the fetched one (R86). -/
def obtainWord (supplied : Option Word) (s : State) : Except Trap Word :=
  match supplied with
  | some w => .ok w
  | none => fetch s

/-- Decode and run one handler, from the state `started` after the advance; `start` is the state at the
start of the step (R74, R80, R90). -/
def dispatchWord (start : State) (w : Word) (started : State) : Host.Outcome State Fault Refusal :=
  match decode w with
  | .error _ => .next (takeFault start (some w) .unsupportedInstruction)
  | .ok i => settle start (exec i started)

/-- `Step(supplied)` (R84), once a step may be taken. -/
def runStep (supplied : Option Word) (s : State) : Host.Outcome State Fault Refusal :=
  match obtainWord supplied s with
  | .error k => .next (takeFault s none k)
  | .ok w =>
    match beginStep s w with
    | .error k => .next (takeFault s (some w) k)
    | .ok started => dispatchWord s w started

/-- A step that the mode allows, on a machine that starts: one whose program image was refused does not
(R237; notes/assumptions/23.md). -/
def stepIfStarted (supplied : Option Word) (s : State) : Host.Outcome State Fault Refusal :=
  if s.loadRefused then .refused .imageTooLarge else runStep supplied s

/-- The host's action Step: one step in `Running`; refused in `Paused` and in `Halted` (R84, R209, R216). -/
def stepRequest (supplied : Option Word) (s : State) : Host.Outcome State Fault Refusal :=
  match s.mode with
  | .running => stepIfStarted supplied s
  | .paused => .refused .paused
  | .halted => .refused .halted

/-- The host's action SingleStep: one step in `Paused`, which stays `Paused` unless the step faults
(R209, R212, R216). -/
def singleStepRequest (supplied : Option Word) (s : State) : Host.Outcome State Fault Refusal :=
  match s.mode with
  | .running => .refused .notPaused
  | .paused => stepIfStarted supplied s
  | .halted => .refused .halted

/-- `mem[a] <- b` where address `a` exists. -/
def State.placeByte (s : State) (a : Nat) (b : Byte) : State :=
  if a > addrMax then s else s.putByte a b

/-- The word placed where the next step fetches: high byte at `pc`, low byte at `pc + 1` (R57, R86). -/
def placeWordAtPc (s : State) (w : Word) : State :=
  (s.placeByte s.pc.toNat (highByte w)).placeByte (s.pc.toNat + 1) (lowByte w)

end Sys2Proof.Machine
end

