-- ==== Sys2Proof/Machine/Step.lean ====
section
/-! DEFINITION. The machine's step: the host's action Step, fetching from memory (spec/30_encoding.md
R84, spec/60_exceptions.md R216). -/

namespace Sys2Proof.Machine

/-- One step of CORE (R84): a next state in `Running`, where a fault is taken as the next state R203 gives;
refused in `Paused` and `Halted` (R209, R216). -/
def step (s : State) : Host.Outcome State Fault Refusal := stepRequest none s

/-- `s` with the instruction word `w` of `nbits` bits at the program counter (notes/assumptions/14.md).
Nothing but those two bytes of memory changes. -/
def State.withFetchWord (s : State) (nbits w : Nat) : State :=
  placeWordAtPc s (BitVec.ofNat 16 (w % 2 ^ nbits))

end Sys2Proof.Machine
end

