-- ==== Sys2Proof/Machine/HostActions.lean ====
section
/-! DEFINITION. What the host can do to CORE between steps (spec/60_exceptions.md R209 to R218,
spec/70_reset_and_hazards.md R237). -/

namespace Sys2Proof.Machine

/-- The host's actions (R216). -/
inductive HostAction where
  /-- LoadProgram(bytes) (R237). -/
  | loadProgram (bytes : List Byte)
  /-- Step, or Step(w) with a supplied word. -/
  | step (supplied : Option Word)
  /-- SingleStep, or SingleStep(w). -/
  | singleStep (supplied : Option Word)
  | pause
  | resume
  | decrementDelay
  | decrementSound
  | readDisplay
  | clearRedraw
  | setKey (k : KeyIndex) (pressed : Bool)
  | introspect
  deriving DecidableEq, Repr

/-- `PROGRAM_BASE` (R6). -/
def programBase : Nat := 0x200

/-- `MAX_PROGRAM`, 3584 bytes (R6, R237). -/
def maxProgram : Nat := 3584

/-- Bytes written to memory from address `a` on. -/
def State.putBytes (s : State) (a : Nat) (bytes : List Byte) : State :=
  match bytes with
  | [] => s
  | b :: rest => State.putBytes (s.putByte a b) (a + 1) rest

/-- LoadProgram (R237): once, after reset and before the first step (R216).  An over-long image is refused:
no byte of it is copied and the machine does not start, which `loadRefused` records and every step action
heeds.  DESIGN CHOICE: no other image is accepted after it (notes/assumptions/23.md). -/
def loadProgram (bytes : List Byte) (s : State) : Host.Outcome State Fault Refusal :=
  if s.loadOpen = false ∨ s.mode = .halted then .refused .loadClosed
  else if bytes.length > maxProgram then .next { s with loadOpen := false, loadRefused := true }
  else .next { s.putBytes programBase bytes with loadOpen := false }

/-- Pause (R209): `Halted` stays as it is. -/
def pauseRequest (s : State) : Host.Outcome State Fault Refusal :=
  match s.mode with
  | .running => .next { s with mode := .paused }
  | .paused => .refused .notRunning
  | .halted => .next s

/-- Resume (R209): `Halted` stays as it is. -/
def resumeRequest (s : State) : Host.Outcome State Fault Refusal :=
  match s.mode with
  | .running => .refused .notPaused
  | .paused => .next { s with mode := .running }
  | .halted => .next s

/-- A timer counted down by one, not below zero (R214). -/
def countDown (t : Byte) : Byte := if t.toNat > 0 then t - 1#8 else t

/-- What CORE does on a host action (R216). -/
def hostAct (a : HostAction) (s : State) : Host.Outcome State Fault Refusal :=
  match a with
  | .loadProgram bytes => loadProgram bytes s
  | .step supplied => stepRequest supplied s
  | .singleStep supplied => singleStepRequest supplied s
  | .pause => pauseRequest s
  | .resume => resumeRequest s
  | .decrementDelay => .next { s with dt := countDown s.dt }
  | .decrementSound => .next { s with st := countDown s.st }
  | .readDisplay => .next s
  | .clearRedraw => .next { s with redraw := false }
  | .setKey k pressed => .next (s.putKey k pressed)
  | .introspect => .next s

/-- What ReadDisplay returns (R217). -/
def readDisplay (s : State) : Display × Bool := (s.disp, s.redraw)

/-- What Introspect returns (R216): registers, `I`, `pc`, timers, memory, `Mode` and `Fault`. -/
structure Snapshot where
  v : Vector Byte 16
  regI : Word
  pc : Word
  dt : Byte
  st : Byte
  /-- The 4096 bytes of memory, address 0 first. -/
  memory : List Byte
  mode : Mode
  fault : Option FaultRecord
  deriving DecidableEq, Repr

/-- Introspect (R216). -/
def introspect (s : State) : Snapshot :=
  { v := s.v
    regI := s.regI
    pc := s.pc
    dt := s.dt
    st := s.st
    memory := (List.range (addrMax + 1)).map s.byteAt
    mode := s.mode
    fault := s.fault }

/-- The numeric code of a fault (R200, D25). -/
def Trap.code (k : Trap) : Nat :=
  match k with
  | .unsupportedInstruction => 1
  | .stackOverflow => 2
  | .stackUnderflow => 3
  | .outOfRangeAddress _ => 4
  | .keyIndexOutOfRange _ => 5

/-- `addr` of a fault record (R200). -/
def FaultRecord.addr (r : FaultRecord) : Option Nat :=
  match r.kind with
  | .outOfRangeAddress a => some a
  | .unsupportedInstruction | .stackOverflow | .stackUnderflow | .keyIndexOutOfRange _ => none

/-- `key` of a fault record (R200). -/
def FaultRecord.key (r : FaultRecord) : Option Byte :=
  match r.kind with
  | .keyIndexOutOfRange k => some k
  | .unsupportedInstruction | .stackOverflow | .stackUnderflow | .outOfRangeAddress _ => none

end Sys2Proof.Machine
end

