-- ==== Sys2Proof/Safety.lean ====
section
/-! DEFINITION. What a good state and a good end of a run are: the invariant every step and every host
action keeps, the end conditions of spec/60_exceptions.md R221, and runs as sequences of host actions
(R216, R222). -/

namespace Sys2Proof.Machine

/-- The invariant of CORE. -/
structure State.Inv (s : State) : Prop where
  /-- `STACK_CAPACITY ≥ 16` (R6). -/
  cfg_ok : s.cfg.wellFormed = true
  /-- `pc` is in 0x000 to 0xFFF (R23). -/
  pc_ok : s.pc.toNat ≤ addrMax
  /-- `I` is within the modulus of FX1E (R26, R164). -/
  regI_ok : s.regI.toNat < s.cfg.iaddModulus.toNat
  /-- There are `STACK_CAPACITY` slots (R27). -/
  stack_len : s.stack.length = s.cfg.stackCapacity
  /-- `SP` is in 0 to `STACK_CAPACITY` (R28). -/
  sp_ok : s.sp ≤ s.cfg.stackCapacity
  /-- Every slot holds an address `pc` may hold (R101). -/
  stack_ok : ∀ w ∈ s.stack, w.toNat ≤ addrMax
  /-- Memory has its canonical form, all within 0x000 to 0xFFF (R33, R50). -/
  mem_ok : Memory.wf s.cfg.font s.mem = true
  /-- The fault record is there exactly in `Halted` (R38). -/
  fault_ok : s.fault.isSome = true ↔ s.mode = .halted

/-! ### What a step leaves alone -/

/-- Every byte of memory reads in `t` as in `s`. -/
def SameMemory (s t : State) : Prop := ∀ a, t.byteAt a = s.byteAt a

/-- Every byte of memory but the `n` bytes from `base` on reads in `t` as in `s`. -/
def SameMemoryOutside (base n : Nat) (s t : State) : Prop :=
  ∀ a, (a < base ∨ base + n ≤ a) → t.byteAt a = s.byteAt a

/-- `t` is `s` but for the general registers. -/
def OnlyRegsDiffer (s t : State) : Prop := { t with v := s.v } = s ∧ SameMemory s t

/-- `t` is `s` but for the program counter. -/
def OnlyPcDiffers (s t : State) : Prop := { t with pc := s.pc } = s ∧ SameMemory s t

/-- `t` is `s` but for the index register. -/
def OnlyIndexDiffers (s t : State) : Prop := { t with regI := s.regI } = s ∧ SameMemory s t

/-- `t` is what a fault of kind `k` leaves when a handler entered with `s` raises it: `Halted`, and the
record with the word in `IR` and the instruction's address, `pc - 2` (R200, R203). -/
def FaultTaken (s t : State) (k : Trap) : Prop :=
  t.mode = .halted ∧ t.fault = some { kind := k, word := some s.ir, startPc := s.pc - 2#16 }

/-- The general registers an instruction may write: the table of R22. -/
def mayWriteReg (i : Instr) (r : RegIndex) : Bool :=
  match i with
  | .ldImm x _ | .addImm x _ | .ldReg x _ | .orReg x _ | .andReg x _ | .xorReg x _ => r == x
  | .rnd x _ | .ldVxDt x | .ldVxK x => r == x
  | .addReg x _ | .subReg x _ | .shrReg x _ | .subnReg x _ | .shlReg x _ =>
    r == x || r == vfIndex
  | .drw _ _ _ => r == vfIndex
  | .ldVxMem x => decide (r ≤ x)
  | .sys _ | .cls | .ret | .jp _ | .call _ | .seImm _ _ | .sneImm _ _ | .seReg _ _ => false
  | .sneReg _ _ | .ldI _ | .jpV0 _ | .skp _ | .sknp _ | .ldDtVx _ | .ldStVx _ => false
  | .addIVx _ | .ldFVx _ | .ldBVx _ | .ldMemVx _ => false

/-! ### Sprites -/

/-- The sprite bit that DXYN with coordinates `x0`, `y0` and `n` rows at `I` puts on cell (`cx`, `cy`), in
closed form: the cell is in column `b` of the sprite when `cx = (x0 + b) mod 64`, in row `r` when
`cy = (y0 + r) mod 32` (R151).  256 is a multiple of 64 and of 32, so adding it changes neither. -/
def spriteBitOn (s : State) (x0 y0 : Byte) (n : Nat) (cx : Fin 64) (cy : Fin 32) : Bool :=
  let b := (cx.val + 256 - x0.toNat) % 64
  let r := (cy.val + 256 - y0.toNat) % 32
  decide (b < 8) && decide (r < n) && (s.byteAt (s.regI.toNat + r)).getLsbD (7 - b)

/-! ### The ends of a run -/

/-- End condition (a) of R221: faulted. -/
def State.faulted (s : State) : Prop := s.mode = .halted

/-- End condition (b) of R221: parked at `a`, that is, at the instruction `JP a`. -/
structure State.Parked (s : State) (a : Nat) : Prop where
  not_halted : s.mode ≠ .halted
  at_pc : s.pc.toNat = a
  bound : a ≤ 0xFFD
  high : s.byteAt a = BitVec.ofNat 8 (0x10 ||| (a >>> 8))
  low : s.byteAt (a + 1) = BitVec.ofNat 8 (a &&& 0xFF)

/-- States reached from `s` by host actions, each accepted (R216). -/
inductive Reaches (s : State) : State → Prop where
  | refl : Reaches s s
  | act (t u : State) (a : HostAction) : Reaches s t → hostAct a t = .next u → Reaches s u

end Sys2Proof.Machine
end

