-- ==== Sys2Proof/Certificates/Slice0/Obligations.lean ====
section
/-! DEFINITION. The statements for the provers, in the order of OBLIGATIONS.json.  Each docstring names the
rule of spec/ it formalises.  A handler is entered with `pc` at the instruction's address plus 2 (R24). -/

open Sys2Proof Sys2Proof.Machine

/-! ### Reset and invariants -/

/-- The table of R43, for every configuration; the entries the table marks as its own decisions (D9) are
included, so this is a derived statement (notes/assumptions/5.md). -/
def Obligations.ResetStateIsTheTable : Prop :=
  (∀ c : Config,
    let s := State.resetWith c
    (∀ x, s.reg x = 0#8) ∧ s.regI = 0#16 ∧ s.pc = 0x200#16 ∧ s.sp = 0 ∧
    (∀ k, 1 ≤ k → k ≤ c.stackCapacity → s.slot k = some 0#16) ∧
    s.dt = 0#8 ∧ s.st = 0#8 ∧ (∀ x y, s.disp.cell x y = false) ∧
    (∀ (d : Fin 16) (r : Fin 5), s.byteAt (5 * d.val + r.val) = (c.font.get d).get r) ∧
    (∀ a, 80 ≤ a → a ≤ 0xFFF → s.byteAt a = 0#8) ∧
    (∀ k, s.keyDown k = false) ∧ s.redraw = false ∧ s.ir = 0#16 ∧ s.mode = .running ∧
    s.fault = none) ∧
  State.reset = State.resetWith defaultConfig ∧
  defaultConfig.stackCapacity = 16 ∧ defaultConfig.shiftSource = .vx ∧
  defaultConfig.iaddModulus = .m65536

/-- The invariant holds after reset, with the defaults and in every configuration R6 allows. -/
def Obligations.ResetMeetsInvariant : Prop :=
  State.reset.Inv ∧ ∀ c : Config, c.wellFormed = true → (State.resetWith c).Inv

/-- Every step from a state with the invariant leads to one with it (R20 to R38). -/
def Obligations.StepKeepsInvariant : Prop :=
  ∀ s t : State, s.Inv → step s = .next t → t.Inv

/-- Every accepted host action keeps the invariant, supplied words and program load among them (R216). -/
def Obligations.HostActionKeepsInvariant : Prop :=
  ∀ (a : HostAction) (s t : State), s.Inv → hostAct a s = .next t → t.Inv

/-- In `Running`, from a state with the invariant, a step always answers a next state: every fault the spec
names is taken (R203), nothing else stops it, but that a machine whose program image was refused for its
length does not start (R237; the field is the model's own, notes/assumptions/23.md). -/
def Obligations.RunningStepAnswersNext : Prop :=
  ∀ s : State, s.Inv → s.mode = .running →
    (s.loadRefused = false → ∃ t, step s = .next t) ∧
    (s.loadRefused = true → step s = .refused .imageTooLarge)

/-- The parameters of R6 are fixed for a run (R42). -/
def Obligations.ConfigurationNeverChanges : Prop :=
  ∀ s t : State, Reaches s t → t.cfg = s.cfg

/-! ### Encoding -/

/-- Decoding the encoding of any well-formed instruction gives it back, every operand kept (R71 to R79). -/
def Obligations.DecodeAfterEncode : Prop :=
  ∀ i : Instr, i.wellFormed = true → decode (encode i) = .ok i

/-- A word that decodes is the encoding of what it decodes to, and that is well-formed (R73, R82). -/
def Obligations.EncodeAfterDecode : Prop :=
  ∀ (w : Word) (i : Instr), decode w = .ok i → encode i = w ∧ i.wellFormed = true

/-- One word written out for every row of the opcode map R82, X and Y or the digits of NN and NNN told apart.
The class nibbles of JP, CALL, SNE, SE and SNE between registers, LD I, JP V0, RND and DRW and the words
00E0 and 00EE are the spec's own decisions D1 and D2, from general knowledge (notes/assumptions/4.md). -/
def Obligations.DecodesSampleWords : Prop :=
  (decode 0x00E1#16 = .ok (.sys 0x0E1#12) ∧ decode 0x00E0#16 = .ok .cls ∧
    decode 0x00EE#16 = .ok .ret ∧ decode 0x1234#16 = .ok (.jp 0x234#12) ∧
    decode 0x2456#16 = .ok (.call 0x456#12) ∧ decode 0x3315#16 = .ok (.seImm 3 0x15#8) ∧
    decode 0x4A27#16 = .ok (.sneImm 0xA 0x27#8) ∧ decode 0x5120#16 = .ok (.seReg 1 2) ∧
    decode 0x6305#16 = .ok (.ldImm 3 0x05#8) ∧ decode 0x7310#16 = .ok (.addImm 3 0x10#8)) ∧
  (decode 0x8120#16 = .ok (.ldReg 1 2) ∧ decode 0x8341#16 = .ok (.orReg 3 4) ∧
    decode 0x8562#16 = .ok (.andReg 5 6) ∧ decode 0x8783#16 = .ok (.xorReg 7 8) ∧
    decode 0x89A4#16 = .ok (.addReg 9 0xA) ∧ decode 0x8BC5#16 = .ok (.subReg 0xB 0xC) ∧
    decode 0x8DE6#16 = .ok (.shrReg 0xD 0xE) ∧ decode 0x8F07#16 = .ok (.subnReg 0xF 0) ∧
    decode 0x812E#16 = .ok (.shlReg 1 2)) ∧
  (decode 0x9AB0#16 = .ok (.sneReg 0xA 0xB) ∧ decode 0xA30C#16 = .ok (.ldI 0x30C#12) ∧
    decode 0xB123#16 = .ok (.jpV0 0x123#12) ∧ decode 0xC50F#16 = .ok (.rnd 5 0x0F#8) ∧
    decode 0xD125#16 = .ok (.drw 1 2 5) ∧ decode 0xE49E#16 = .ok (.skp 4) ∧
    decode 0xE1A1#16 = .ok (.sknp 1)) ∧
  (decode 0xF507#16 = .ok (.ldVxDt 5) ∧ decode 0xF30A#16 = .ok (.ldVxK 3) ∧
    decode 0xF515#16 = .ok (.ldDtVx 5) ∧ decode 0xF618#16 = .ok (.ldStVx 6) ∧
    decode 0xF11E#16 = .ok (.addIVx 1) ∧ decode 0xFC29#16 = .ok (.ldFVx 0xC) ∧
    decode 0xF733#16 = .ok (.ldBVx 7) ∧ decode 0xF855#16 = .ok (.ldMemVx 8) ∧
    decode 0xFA65#16 = .ok (.ldVxMem 0xA))

/-- The unsupported words are exactly those of R80's table, and the word is what is reported.  That classes 5
and 9 need N = 0 is the spec's own decision D10 (notes/assumptions/4.md). -/
def Obligations.UnsupportedWordsAreTheTable : Prop :=
  ∀ w : Word,
    let c := w.toNat / 4096
    let n := w.toNat % 16
    let nn := w.toNat % 256
    ((∃ e, decode w = .error e) ↔
      (c = 5 ∧ n ≠ 0) ∨ (c = 9 ∧ n ≠ 0) ∨
      (c = 8 ∧ n ∈ [0x8, 0x9, 0xA, 0xB, 0xC, 0xD, 0xF]) ∨
      (c = 0xE ∧ nn ∉ [0x9E, 0xA1]) ∨
      (c = 0xF ∧ nn ∉ [0x07, 0x0A, 0x15, 0x18, 0x1E, 0x29, 0x33, 0x55, 0x65])) ∧
    (∀ e, decode w = .error e → e = .unsupported w)

/-! ### The step -/

/-- When the bytes at `pc` and `pc + 1` decode to `i`, the step is `exec i` on the state with `IR` written and
`pc` advanced by 2 (R84 to R90).  Two parts are choices: where the handler faults, `settle` puts back the
state before the step (R203, the spec's own decision D16, notes/assumptions/8.md: no claim may read that
state), and the step closes program load in the model's own field `loadOpen` (notes/assumptions/10.md).  The
machine is one that starts (R237, notes/assumptions/23.md). -/
def Obligations.StepRunsDecodedInstruction : Prop :=
  ∀ (s : State) (i : Instr), s.mode = .running → s.loadRefused = false → s.pc.toNat ≤ 0xFFD →
    decode (wordOfBytes (s.byteAt s.pc.toNat) (s.byteAt (s.pc.toNat + 1))) = .ok i →
    step s =
      settle s (exec i
        { s with ir := wordOfBytes (s.byteAt s.pc.toNat) (s.byteAt (s.pc.toNat + 1))
                 pc := s.pc + 2#16
                 loadOpen := false })

/-- The word is the byte at `pc` times 256 plus the byte at `pc + 1` (R57). -/
def Obligations.FetchIsBigEndian : Prop :=
  ∀ s : State, s.pc.toNat ≤ 0xFFE →
    ∃ w, fetch s = .ok w ∧
      w.toNat = (s.byteAt s.pc.toNat).toNat * 256 + (s.byteAt (s.pc.toNat + 1)).toNat

/-- No instruction at 0xFFE or 0xFFF executes: at 0xFFF the fetch of 0x1000 faults with no word, at 0xFFE
the advance to 0x1000 faults with the word fetched (R86, R87, R200).  That these addresses fault and are not
masked is the spec's own decision, D3 for the fetch and D4 for the advance (notes/assumptions/16.md). -/
def Obligations.StepAtTopOfMemoryFaults : Prop :=
  ∀ s : State, s.mode = .running → s.loadRefused = false →
    (s.pc = 0xFFF#16 →
      ∃ t, step s = .next t ∧ t.mode = .halted ∧
        t.fault = some { kind := .outOfRangeAddress 0x1000, word := none, startPc := 0xFFF#16 }) ∧
    (s.pc = 0xFFE#16 →
      ∃ t, step s = .next t ∧ t.mode = .halted ∧
        t.fault = some { kind := .outOfRangeAddress 0x1000
                         word := some (wordOfBytes (s.byteAt 0xFFE) (s.byteAt 0xFFF))
                         startPc := 0xFFE#16 })

/-- A word with no handler is fatal and reported, after the advance check and before any effect (R80, R201,
R202). -/
def Obligations.UnsupportedWordFaults : Prop :=
  ∀ (s : State) (w : Word) (e : DecodeError), s.mode = .running → s.loadRefused = false →
    s.pc.toNat ≤ 0xFFD →
    w = wordOfBytes (s.byteAt s.pc.toNat) (s.byteAt (s.pc.toNat + 1)) → decode w = .error e →
    ∃ t, step s = .next t ∧ t.mode = .halted ∧
      t.fault = some { kind := .unsupportedInstruction, word := some w, startPc := s.pc }

/-- A step on a supplied word (R88), whatever memory holds at `pc`: it advances `pc` and runs that word; it
faults with that word where it does not decode, and where the advance leaves memory; and where memory holds
that very word it is the step that fetches.  That it advances `pc` is the spec's own decision D18
(notes/assumptions/20.md), that the advance past 0xFFF faults D4 (notes/assumptions/16.md); `settle` where
the handler faults is D16 (notes/assumptions/8.md), and `loadOpen` is the model's own field
(notes/assumptions/10.md). -/
def Obligations.SuppliedWordStepsAsFetched : Prop :=
  ∀ (s : State) (w : Word),
    (s.mode = .running → s.loadRefused = false → s.pc.toNat ≤ 0xFFD → ∀ i, decode w = .ok i →
      stepRequest (some w) s =
        settle s (exec i { s with ir := w, pc := s.pc + 2#16, loadOpen := false })) ∧
    (s.mode = .running → s.loadRefused = false → s.pc.toNat ≤ 0xFFD → ∀ e, decode w = .error e →
      ∃ t, stepRequest (some w) s = .next t ∧ t.mode = .halted ∧
        t.fault = some { kind := .unsupportedInstruction, word := some w, startPc := s.pc }) ∧
    (s.mode = .running → s.loadRefused = false → 0xFFD < s.pc.toNat →
      ∃ t, stepRequest (some w) s = .next t ∧ t.mode = .halted ∧
        t.fault = some { kind := .outOfRangeAddress (s.pc.toNat + 2)
                         word := some w
                         startPc := s.pc }) ∧
    (s.pc.toNat ≤ 0xFFE →
      w = wordOfBytes (s.byteAt s.pc.toNat) (s.byteAt (s.pc.toNat + 1)) →
      stepRequest (some w) s = step s)

/-- Fault entry is precise (R200, R203, R204): where a step ends in `Halted` it left a record whose `at` is the
program counter at the start of the step and whose word is that of the step, absent where the fetch
faulted.  Nothing is said of the rest of the state: no claim may depend on it (R203;
notes/assumptions/8.md). -/
def Obligations.FaultRecordNamesTheStep : Prop :=
  ∀ (supplied : Option Word) (s t : State), s.mode ≠ .halted →
    runStep supplied s = .next t → t.mode = .halted →
    ∃ r, t.fault = some r ∧ r.startPc = s.pc ∧
      (supplied ≠ none → r.word = supplied) ∧
      (supplied = none →
        if s.pc.toNat ≤ 0xFFE then
          r.word = some (wordOfBytes (s.byteAt s.pc.toNat) (s.byteAt (s.pc.toNat + 1)))
        else r.word = none)

/-- No instruction writes `Mode` except by faulting (R37, R38): a step either keeps `Mode` and the fault
record or enters `Halted` with a record. -/
def Obligations.ModeChangesOnlyByFault : Prop :=
  ∀ (supplied : Option Word) (s t : State), s.mode ≠ .halted → runStep supplied s = .next t →
    (t.mode = s.mode ∧ t.fault = s.fault) ∨ (t.mode = .halted ∧ t.fault.isSome = true)

/-- `Halted` is terminal (R205, R209, R216): from it no step is accepted and no host action leaves it or
touches its record. -/
def Obligations.HaltedIsTerminal : Prop :=
  ∀ s : State, s.mode = .halted →
    step s = .refused .halted ∧
    (∀ w, hostAct (.step w) s = .refused .halted) ∧
    (∀ w, hostAct (.singleStep w) s = .refused .halted) ∧
    (∀ t, Reaches s t → t.mode = .halted ∧ t.fault = s.fault)

/-- The run-mode transitions of R209 from `Running` and `Paused`, and that no plain step is accepted while
`Paused` (R210, R216): a single step while `Paused` does what the step would do in `Running`, and leaves
`Mode = Paused` unless it faults (R212).  Two clauses are choices: that SingleStep is refused in `Running`
is the model's (R216 is silent there; notes/assumptions/12.md), and Resume is the spec's own decision
D19. -/
def Obligations.PauseResumeAndSingleStep : Prop :=
  ∀ s : State,
    (s.mode = .running →
      hostAct .pause s = .next { s with mode := .paused } ∧
      ∀ w, hostAct (.singleStep w) s = .refused .notPaused) ∧
    (s.mode = .paused →
      hostAct .resume s = .next { s with mode := .running } ∧
      step s = .refused .paused ∧ (∀ w, hostAct (.step w) s = .refused .paused) ∧
      ∀ w t, hostAct (.singleStep w) s = .next t →
        ∃ u, hostAct (.step w) { s with mode := .running } = .next u ∧
          (t.mode = .halted ∧ u.mode = .halted ∧ t.fault = u.fault ∨
           t.mode = .paused ∧ t = { u with mode := .paused }))

/-! ### Whole-machine rules: which instruction may write what -/

/-- The general registers are written as the table of R22 says and not otherwise. -/
def Obligations.RegisterWritersAreTheTable : Prop :=
  ∀ (i : Instr) (s t : State) (r : RegIndex), exec i s = .next t →
    mayWriteReg i r = false → t.reg r = s.reg r

/-- "A step never changes DT or ST except through FX15 and FX18" (R213): a step of either kind, Step or
SingleStep, on the word in memory or on a supplied one.  For a step that faults it rests on the spec's own
decision D16 (notes/assumptions/8.md). -/
def Obligations.TimersChangeOnlyByTheirLoads : Prop :=
  ∀ (supplied : Option Word) (s t : State), runStep supplied s = .next t →
    let w := supplied.getD (wordOfBytes (s.byteAt s.pc.toNat) (s.byteAt (s.pc.toNat + 1)))
    (t.dt ≠ s.dt → ∃ x, decode w = .ok (.ldDtVx x)) ∧
    (t.st ≠ s.st → ∃ x, decode w = .ok (.ldStVx x))

/-- `I` is written by ANNN, FX1E and FX29, "and by nothing else" (R25). -/
def Obligations.IndexChangesOnlyByThree : Prop :=
  ∀ (i : Instr) (s t : State), exec i s = .next t → t.regI ≠ s.regI →
    (∃ nnn, i = .ldI nnn) ∨ (∃ x, i = .addIVx x) ∨ (∃ x, i = .ldFVx x)

/-- The display buffer is changed only by CLS and DRW (R217), and no instruction clears `Redraw` (R32). -/
def Obligations.DisplayChangesOnlyByTwo : Prop :=
  ∀ (i : Instr) (s t : State), exec i s = .next t →
    (t.disp ≠ s.disp ∨ t.redraw ≠ s.redraw → i = .cls ∨ ∃ x y n, i = .drw x y n) ∧
    (s.redraw = true → t.redraw = true)

/-- Memory is written only by FX33, at `I` to `I + 2`, and FX55, at `I` to `I + X` (R51, R60). -/
def Obligations.MemoryChangesOnlyByTwo : Prop :=
  ∀ (i : Instr) (s t : State) (a : Nat), exec i s = .next t → t.byteAt a ≠ s.byteAt a →
    (∃ x, i = .ldBVx x ∧ s.regI.toNat ≤ a ∧ a ≤ s.regI.toNat + 2) ∨
    (∃ x, i = .ldMemVx x ∧ s.regI.toNat ≤ a ∧ a ≤ s.regI.toNat + x.val)

/-- `SP` is written only by CALL and RET, a slot only by CALL (R27, R28). -/
def Obligations.StackChangesOnlyByCallAndReturn : Prop :=
  ∀ (i : Instr) (s t : State), exec i s = .next t →
    (t.sp ≠ s.sp → i = .ret ∨ ∃ nnn, i = .call nnn) ∧
    (t.stack ≠ s.stack → ∃ nnn, i = .call nnn)

/-- No instruction sets a key flag, and only FX0A clears one, the one it captures (R35, R161).  That the key
skips clear none is the spec's own decision D14, that FX0A takes the lowest of several pressed keys D15
(notes/assumptions/17.md). -/
def Obligations.KeysChangeOnlyByKeyWait : Prop :=
  ∀ (i : Instr) (s t : State) (k : KeyIndex), exec i s = .next t → t.keyDown k ≠ s.keyDown k →
    (∃ x, i = .ldVxK x) ∧ s.keyDown k = true ∧ t.keyDown k = false ∧
      ∀ j, j < k → s.keyDown j = false

/-! ### Control flow -/

/-- SYS: every class-0 word but 00E0 and 00EE is SYS, and a step on it only advances (R100).  The step is one
on the supplied word (R88), so that it advances is the spec's own decision D18 (notes/assumptions/20.md);
that it closes program load, in the field `loadOpen`, is the model's (notes/assumptions/10.md). -/
def Obligations.SysIsSilentNoOp : Prop :=
  ∀ (s : State) (nnn : Addr12), nnn ≠ 0x0E0#12 → nnn ≠ 0x0EE#12 →
    decode (BitVec.ofNat 16 nnn.toNat) = .ok (.sys nnn) ∧ exec (.sys nnn) s = .next s ∧
    (s.mode = .running → s.loadRefused = false → s.pc.toNat ≤ 0xFFD →
      stepRequest (some (BitVec.ofNat 16 nnn.toNat)) s =
        .next { s with ir := BitVec.ofNat 16 nnn.toNat, pc := s.pc + 2#16, loadOpen := false })

/-- JP: `pc <- NNN`, never a fault (R102). -/
def Obligations.JumpSetsPc : Prop :=
  ∀ (nnn : Addr12) (s : State), ∃ t, exec (.jp nnn) s = .next t ∧
    t.pc.toNat = nnn.toNat ∧ OnlyPcDiffers s t

/-- JP V0: `pc <- NNN + V0`, exact; above 0xFFF it faults with that sum (R108), which is the spec's own
decision D4 (notes/assumptions/16.md); `I` is not written (C1, notes/assumptions/21.md). -/
def Obligations.IndexedJumpSetsPc : Prop :=
  ∀ (nnn : Addr12) (s : State),
    (nnn.toNat + (s.reg 0).toNat ≤ 0xFFF →
      ∃ t, exec (.jpV0 nnn) s = .next t ∧ t.pc.toNat = nnn.toNat + (s.reg 0).toNat ∧
        OnlyPcDiffers s t) ∧
    (0xFFF < nnn.toNat + (s.reg 0).toNat →
      ∃ t, exec (.jpV0 nnn) s = .next t ∧
        FaultTaken s t (.outOfRangeAddress (nnn.toNat + (s.reg 0).toNat)))

/-- CALL: `SP` counted up, the advanced `pc` in that slot, `pc <- NNN`, nothing else; at capacity it faults
(R103). -/
def Obligations.CallPushesReturnAddress : Prop :=
  ∀ (nnn : Addr12) (s : State),
    (s.sp < s.cfg.stackCapacity → s.stack.length = s.cfg.stackCapacity →
      ∃ t, exec (.call nnn) s = .next t ∧ t.sp = s.sp + 1 ∧ t.slot (s.sp + 1) = some s.pc ∧
        t.pc.toNat = nnn.toNat ∧ (∀ k, k ≠ s.sp + 1 → t.slot k = s.slot k) ∧
        { t with sp := s.sp, stack := s.stack, pc := s.pc } = s ∧ SameMemory s t) ∧
    (s.sp = s.cfg.stackCapacity →
      ∃ t, exec (.call nnn) s = .next t ∧ FaultTaken s t .stackOverflow)

/-- RET: `pc <- S[SP]`, then `SP` counted down, the slot keeping its value; with `SP = 0` it faults (R101). -/
def Obligations.ReturnPopsReturnAddress : Prop :=
  ∀ (s : State) (target : Word),
    (s.sp ≠ 0 → s.slot s.sp = some target → target.toNat ≤ 0xFFF →
      ∃ t, exec .ret s = .next t ∧ t.pc = target ∧ t.sp + 1 = s.sp ∧
        { t with pc := s.pc, sp := s.sp } = s ∧ SameMemory s t) ∧
    (s.sp = 0 → ∃ t, exec .ret s = .next t ∧ FaultTaken s t .stackUnderflow)

/-- A CALL and a RET, whatever `pc` and `IR` are when the RET runs, leave the advanced `pc` and the `SP` of
the CALL (R101, C11). -/
def Obligations.CallThenReturnRoundTrip : Prop :=
  ∀ (nnn : Addr12) (s : State) (p w : Word), s.Inv → s.sp < s.cfg.stackCapacity →
    ∃ t u, exec (.call nnn) s = .next t ∧ exec .ret { t with pc := p, ir := w } = .next u ∧
      u.pc = s.pc ∧ u.sp = s.sp

/-- The model's own stop (notes/assumptions/13.md): CALL or RET where `SP` names a slot the state does not
hold; no state with the invariant is one. -/
def Obligations.MissingStackSlotStops : Prop :=
  ∀ (nnn : Addr12) (s : State),
    (s.stack.length < s.sp → exec .ret s = .fault .noSuchStackSlot) ∧
    (s.stack.length ≤ s.sp → s.sp ≠ s.cfg.stackCapacity →
      exec (.call nnn) s = .fault .noSuchStackSlot) ∧
    (s.Inv → exec .ret s ≠ .fault .noSuchStackSlot ∧
      exec (.call nnn) s ≠ .fault .noSuchStackSlot)

/-- The four register skips where the skip stays in memory: `pc` goes on by 2 exactly when the condition
holds, nothing else changes (R104 to R107). -/
def Obligations.SkipsMoveOnByTwo : Prop :=
  ∀ (x y : RegIndex) (nn : Byte) (s : State), s.pc.toNat ≤ 0xFFD →
    exec (.seImm x nn) s = .next { s with pc := if s.reg x = nn then s.pc + 2#16 else s.pc } ∧
    exec (.sneImm x nn) s = .next { s with pc := if s.reg x = nn then s.pc else s.pc + 2#16 } ∧
    exec (.seReg x y) s =
      .next { s with pc := if s.reg x = s.reg y then s.pc + 2#16 else s.pc } ∧
    exec (.sneReg x y) s =
      .next { s with pc := if s.reg x = s.reg y then s.pc else s.pc + 2#16 }

/-- The four register skips where `pc + 2` is above 0xFFF: a fault with that address when the condition
holds, nothing at all when it does not (R104 to R107).  That the skip faults and is not masked is the spec's
own decision D4 (notes/assumptions/16.md). -/
def Obligations.SkipsPastTopFault : Prop :=
  ∀ (x y : RegIndex) (nn : Byte) (s : State), 0xFFD < s.pc.toNat →
    (s.reg x = nn →
      (∃ t, exec (.seImm x nn) s = .next t ∧
        FaultTaken s t (.outOfRangeAddress (s.pc.toNat + 2))) ∧
      exec (.sneImm x nn) s = .next s) ∧
    (s.reg x ≠ nn →
      (∃ t, exec (.sneImm x nn) s = .next t ∧
        FaultTaken s t (.outOfRangeAddress (s.pc.toNat + 2))) ∧
      exec (.seImm x nn) s = .next s) ∧
    (s.reg x = s.reg y →
      (∃ t, exec (.seReg x y) s = .next t ∧
        FaultTaken s t (.outOfRangeAddress (s.pc.toNat + 2))) ∧
      exec (.sneReg x y) s = .next s) ∧
    (s.reg x ≠ s.reg y →
      (∃ t, exec (.sneReg x y) s = .next t ∧
        FaultTaken s t (.outOfRangeAddress (s.pc.toNat + 2))) ∧
      exec (.seReg x y) s = .next s)

/-- A parked machine steps only to itself (R221): but for `IR`, which each step writes, and the model's own
`loadOpen` (notes/assumptions/10.md), the state after the step is the state before.  "Parked" is the spec's
own definition D26. -/
def Obligations.ParkedStepsToItself : Prop :=
  ∀ (s : State) (a : Nat), s.Parked a → s.mode = .running → s.loadRefused = false →
    ∃ t, step s = .next t ∧ t.Parked a ∧ { t with ir := s.ir, loadOpen := s.loadOpen } = s

/-! ### Register and immediate -/

/-- LD VX, NN (R120) and ADD VX, NN, modulo 256 and without a flag (R121), with their words: the class
nibble, then X, then NN. -/
def Obligations.ImmediateLoadAndAdd : Prop :=
  ∀ (x : RegIndex) (nn : Byte) (s : State),
    (decode (BitVec.ofNat 16 (0x6000 + 256 * x.val + nn.toNat)) = .ok (.ldImm x nn) ∧
      decode (BitVec.ofNat 16 (0x7000 + 256 * x.val + nn.toNat)) = .ok (.addImm x nn)) ∧
    (∃ t, exec (.ldImm x nn) s = .next t ∧ t.reg x = nn ∧
      (∀ r, r ≠ x → t.reg r = s.reg r) ∧ OnlyRegsDiffer s t) ∧
    (∃ t, exec (.addImm x nn) s = .next t ∧
      (t.reg x).toNat = ((s.reg x).toNat + nn.toNat) % 256 ∧
      (∀ r, r ≠ x → t.reg r = s.reg r) ∧ OnlyRegsDiffer s t)

/-- The three writers of `I`: `NNN` (R122), `(I + VX) mod IADD_MODULUS` (R164), `VX * 5` (R165).
That FX1E writes no flag and takes its modulus from a parameter is the spec's own decision D5
(notes/assumptions/19.md). -/
def Obligations.IndexRegisterResults : Prop :=
  ∀ (nnn : Addr12) (x : RegIndex) (s : State),
    (∃ t, exec (.ldI nnn) s = .next t ∧ t.regI.toNat = nnn.toNat ∧ OnlyIndexDiffers s t) ∧
    (∃ t, exec (.addIVx x) s = .next t ∧
      t.regI.toNat = (s.regI.toNat + (s.reg x).toNat) %
        (match s.cfg.iaddModulus with | .m4096 => 4096 | .m32768 => 32768 | .m65536 => 65536) ∧
      OnlyIndexDiffers s t) ∧
    (∃ t, exec (.ldFVx x) s = .next t ∧ t.regI.toNat = (s.reg x).toNat * 5 ∧
      OnlyIndexDiffers s t)

/-- RND: some byte under the mask, whatever the draw (R123).  Nothing is said of which byte: it is free
(notes/assumptions/3.md).  That class C is RND is the spec's own decision D2 (notes/assumptions/4.md). -/
def Obligations.RandomByteStaysUnderMask : Prop :=
  ∀ (x : RegIndex) (nn : Byte) (s : State), ∃ (t : State) (r : Byte),
    exec (.rnd x nn) s = .next t ∧ t.reg x = r &&& nn ∧ t.reg x &&& ~~~nn = 0#8 ∧
      (∀ q, q ≠ x → t.reg q = s.reg q) ∧ { t with v := s.v, draws := s.draws } = s ∧
      SameMemory s t

/-! ### Class 8 -/

/-- LD, OR, AND and XOR between registers, bit by bit, VF unchanged unless it is VX (R131 to R134), with
their words. -/
def Obligations.LogicalOperationsBitwise : Prop :=
  ∀ (x y : RegIndex) (s : State),
    (decode (BitVec.ofNat 16 (0x8000 + 256 * x.val + 16 * y.val)) = .ok (.ldReg x y) ∧
      decode (BitVec.ofNat 16 (0x8001 + 256 * x.val + 16 * y.val)) = .ok (.orReg x y) ∧
      decode (BitVec.ofNat 16 (0x8002 + 256 * x.val + 16 * y.val)) = .ok (.andReg x y) ∧
      decode (BitVec.ofNat 16 (0x8003 + 256 * x.val + 16 * y.val)) = .ok (.xorReg x y)) ∧
    (∃ t, exec (.ldReg x y) s = .next t ∧ t.reg x = s.reg y ∧
      (∀ r, r ≠ x → t.reg r = s.reg r) ∧ OnlyRegsDiffer s t) ∧
    (∃ t, exec (.orReg x y) s = .next t ∧
      (∀ k, (t.reg x).getLsbD k = ((s.reg x).getLsbD k || (s.reg y).getLsbD k)) ∧
      (∀ r, r ≠ x → t.reg r = s.reg r) ∧ OnlyRegsDiffer s t) ∧
    (∃ t, exec (.andReg x y) s = .next t ∧
      (∀ k, (t.reg x).getLsbD k = ((s.reg x).getLsbD k && (s.reg y).getLsbD k)) ∧
      (∀ r, r ≠ x → t.reg r = s.reg r) ∧ OnlyRegsDiffer s t) ∧
    (∃ t, exec (.xorReg x y) s = .next t ∧
      (∀ k, (t.reg x).getLsbD k = xor ((s.reg x).getLsbD k) ((s.reg y).getLsbD k)) ∧
      (∀ r, r ≠ x → t.reg r = s.reg r) ∧ OnlyRegsDiffer s t)

/-- ADD VX, VY: the sum modulo 256, then VF the carry, which stays where X = F (R135), with its words. -/
def Obligations.AddSetsCarry : Prop :=
  ∀ (x y : RegIndex) (s : State),
    decode (BitVec.ofNat 16 (0x8004 + 256 * x.val + 16 * y.val)) = .ok (.addReg x y) ∧
    ∃ t, exec (.addReg x y) s = .next t ∧
      (x ≠ 15 → (t.reg x).toNat = ((s.reg x).toNat + (s.reg y).toNat) % 256) ∧
      (t.reg 15).toNat = (if (s.reg x).toNat + (s.reg y).toNat ≥ 256 then 1 else 0) ∧
      (∀ r, r ≠ x → r ≠ 15 → t.reg r = s.reg r) ∧ OnlyRegsDiffer s t

/-- SUB and SUBN: the difference modulo 256, one way round and the other, then VF = 1 when no borrow, which
stays where X = F (R136, R138), with their words. -/
def Obligations.SubtractsSetNoBorrow : Prop :=
  ∀ (x y : RegIndex) (s : State),
    (decode (BitVec.ofNat 16 (0x8005 + 256 * x.val + 16 * y.val)) = .ok (.subReg x y) ∧
      decode (BitVec.ofNat 16 (0x8007 + 256 * x.val + 16 * y.val)) = .ok (.subnReg x y)) ∧
    (∃ t, exec (.subReg x y) s = .next t ∧
      (x ≠ 15 →
        ((t.reg x).toNat : Int) = (((s.reg x).toNat : Int) - ((s.reg y).toNat : Int)) % 256) ∧
      (t.reg 15).toNat = (if (s.reg x).toNat ≥ (s.reg y).toNat then 1 else 0) ∧
      (∀ r, r ≠ x → r ≠ 15 → t.reg r = s.reg r) ∧ OnlyRegsDiffer s t) ∧
    (∃ t, exec (.subnReg x y) s = .next t ∧
      (x ≠ 15 →
        ((t.reg x).toNat : Int) = (((s.reg y).toNat : Int) - ((s.reg x).toNat : Int)) % 256) ∧
      (t.reg 15).toNat = (if (s.reg y).toNat ≥ (s.reg x).toNat then 1 else 0) ∧
      (∀ r, r ≠ x → r ≠ 15 → t.reg r = s.reg r) ∧ OnlyRegsDiffer s t)

/-- SHR and SHL in both dialects of `SHIFT_SOURCE`: the result, then VF the bit shifted out, whatever VF held
(R137, R139).  That the source is a parameter is the spec's own decision D6 (notes/assumptions/1.md, 21.md). -/
def Obligations.ShiftsSetShiftedOutBit : Prop :=
  ∀ (x y : RegIndex) (s : State) (src : Byte),
    src = (match s.cfg.shiftSource with | .vx => s.reg x | .vy => s.reg y) →
    (∃ t, exec (.shrReg x y) s = .next t ∧ (x ≠ 15 → (t.reg x).toNat = src.toNat / 2) ∧
      (t.reg 15).toNat = src.toNat % 2 ∧
      (∀ r, r ≠ x → r ≠ 15 → t.reg r = s.reg r) ∧ OnlyRegsDiffer s t) ∧
    (∃ t, exec (.shlReg x y) s = .next t ∧
      (x ≠ 15 → (t.reg x).toNat = src.toNat * 2 % 256) ∧
      (t.reg 15).toNat = src.toNat / 128 ∧
      (∀ r, r ≠ x → r ≠ 15 → t.reg r = s.reg r) ∧ OnlyRegsDiffer s t)

/-! ### Display -/

/-- CLS: every cell 0, `Redraw` set, nothing else (R150).  That it sets `Redraw` is the spec's own decision
D13 (notes/assumptions/18.md). -/
def Obligations.ClearDisplay : Prop :=
  ∀ s : State, ∃ t, exec .cls s = .next t ∧ (∀ x y, t.disp.cell x y = false) ∧
    t.redraw = true ∧ { t with disp := s.disp, redraw := s.redraw } = s ∧ SameMemory s t

/-- DRW, the loops of R151 in closed form: each cell is XORed with the sprite bit that falls on it, VF is 1
exactly when a set bit fell on a set cell (R152), `Redraw` is set, nothing else changes.  That VX, VY and `I`
are read before VF is written, which tells where X or Y is F, is the spec's own decision D12
(notes/assumptions/18.md). -/
def Obligations.DrawIsCellwiseXor : Prop :=
  ∀ (x y : RegIndex) (n : RowCount) (s : State), (n.val = 0 ∨ s.regI.toNat + n.val ≤ 4096) →
    ∃ t, exec (.drw x y n) s = .next t ∧
      (∀ cx cy, t.disp.cell cx cy =
        xor (s.disp.cell cx cy) (spriteBitOn s (s.reg x) (s.reg y) n.val cx cy)) ∧
      (t.reg 15 = 1#8 ∨ t.reg 15 = 0#8) ∧
      (t.reg 15 = 1#8 ↔ ∃ cx cy, s.disp.cell cx cy = true ∧
        spriteBitOn s (s.reg x) (s.reg y) n.val cx cy = true) ∧
      (∀ r, r ≠ 15 → t.reg r = s.reg r) ∧ t.redraw = true ∧
      { t with v := s.v, disp := s.disp, redraw := s.redraw } = s ∧ SameMemory s t

/-- Drawing a sprite twice at one place restores the display; if it was clear and the sprite has a set bit,
the first draw leaves VF = 0 and the second VF = 1 (R152). -/
def Obligations.DrawTwiceCancels : Prop :=
  ∀ (x y : RegIndex) (n : RowCount) (s : State), x ≠ 15 → y ≠ 15 →
    (n.val = 0 ∨ s.regI.toNat + n.val ≤ 4096) →
    ∃ t u, exec (.drw x y n) s = .next t ∧ exec (.drw x y n) t = .next u ∧ u.disp = s.disp ∧
      ((∀ cx cy, s.disp.cell cx cy = false) →
        (∃ cx cy, spriteBitOn s (s.reg x) (s.reg y) n.val cx cy = true) →
        t.reg 15 = 0#8 ∧ u.reg 15 = 1#8)

/-! ### Timers, keys, memory blocks -/

/-- FX07, FX15 and FX18: the timer loads and the delay-timer read (R160, R162, R163), with their words. -/
def Obligations.TimerMoves : Prop :=
  ∀ (x : RegIndex) (s : State),
    (decode (BitVec.ofNat 16 (0xF007 + 256 * x.val)) = .ok (.ldVxDt x) ∧
      decode (BitVec.ofNat 16 (0xF015 + 256 * x.val)) = .ok (.ldDtVx x) ∧
      decode (BitVec.ofNat 16 (0xF018 + 256 * x.val)) = .ok (.ldStVx x)) ∧
    (∃ t, exec (.ldVxDt x) s = .next t ∧ t.reg x = s.dt ∧ (∀ r, r ≠ x → t.reg r = s.reg r) ∧
      OnlyRegsDiffer s t) ∧
    (∃ t, exec (.ldDtVx x) s = .next t ∧ t.dt = s.reg x ∧ { t with dt := s.dt } = s ∧
      SameMemory s t) ∧
    (∃ t, exec (.ldStVx x) s = .next t ∧ t.st = s.reg x ∧ { t with st := s.st } = s ∧
      SameMemory s t)

/-- FX0A: with no key pressed it re-arms, `pc` back at the instruction and nothing else changed; else VX gets
the lowest pressed key, whose flag alone is cleared (R161).  That it is the lowest of several is the spec's
own decision D15 (notes/assumptions/17.md). -/
def Obligations.KeyWaitCapturesLowest : Prop :=
  ∀ (x : RegIndex) (s : State),
    ((∀ k, s.keyDown k = false) → 2 ≤ s.pc.toNat → s.pc.toNat ≤ 0x1001 →
      ∃ t, exec (.ldVxK x) s = .next t ∧ t.pc.toNat + 2 = s.pc.toNat ∧ OnlyPcDiffers s t) ∧
    (∀ k, s.keyDown k = true → (∀ j, j < k → s.keyDown j = false) →
      ∃ t, exec (.ldVxK x) s = .next t ∧ (t.reg x).toNat = k.val ∧ t.keyDown k = false ∧
        (∀ r, r ≠ x → t.reg r = s.reg r) ∧ (∀ j, j ≠ k → t.keyDown j = s.keyDown j) ∧
        { t with v := s.v, key := s.key } = s ∧ SameMemory s t)

/-- SKP and SKNP where they complete: `V[X] ≤ 15` names a key, the skip stays in memory, the key flag is kept
(R180, R181).  That it is kept is the spec's own decision D14 (notes/assumptions/17.md). -/
def Obligations.KeySkipsTestTheKey : Prop :=
  ∀ (x : RegIndex) (s : State) (k : KeyIndex), (s.reg x).toNat = k.val → s.pc.toNat ≤ 0xFFD →
    exec (.skp x) s =
      .next { s with pc := if s.keyDown k = true then s.pc + 2#16 else s.pc } ∧
    exec (.sknp x) s =
      .next { s with pc := if s.keyDown k = true then s.pc else s.pc + 2#16 }

/-- SKP and SKNP where they fault: `V[X] > 15` first, then the skip past 0xFFF (R180, R181, R202).  Both faults
are the spec's own decisions, D11 for the key (notes/assumptions/17.md) and D4 for the skip
(notes/assumptions/16.md). -/
def Obligations.KeySkipFaults : Prop :=
  ∀ (x : RegIndex) (s : State),
    (15 < (s.reg x).toNat →
      (∃ t, exec (.skp x) s = .next t ∧ FaultTaken s t (.keyIndexOutOfRange (s.reg x))) ∧
      (∃ t, exec (.sknp x) s = .next t ∧ FaultTaken s t (.keyIndexOutOfRange (s.reg x)))) ∧
    (∀ k : KeyIndex, (s.reg x).toNat = k.val → 0xFFD < s.pc.toNat →
      (s.keyDown k = true →
        (∃ t, exec (.skp x) s = .next t ∧
          FaultTaken s t (.outOfRangeAddress (s.pc.toNat + 2))) ∧
        exec (.sknp x) s = .next s) ∧
      (s.keyDown k = false →
        (∃ t, exec (.sknp x) s = .next t ∧
          FaultTaken s t (.outOfRangeAddress (s.pc.toNat + 2))) ∧
        exec (.skp x) s = .next s))

/-- FX33: hundreds, tens and units at `I`, `I + 1`, `I + 2` (R166). -/
def Obligations.DecimalStoresDigits : Prop :=
  ∀ (x : RegIndex) (s : State), s.addressAt 2 ≤ 0xFFF →
    ∃ t, exec (.ldBVx x) s = .next t ∧
      (t.byteAt (s.addressAt 0)).toNat = (s.reg x).toNat / 100 ∧
      (t.byteAt (s.addressAt 1)).toNat = (s.reg x).toNat / 10 % 10 ∧
      (t.byteAt (s.addressAt 2)).toNat = (s.reg x).toNat % 10 ∧
      SameMemoryOutside (s.addressAt 0) 3 s t ∧ { t with mem := s.mem } = s

/-- FX55: `V[0]` to `V[X]` at `I` to `I + X`, `I` unchanged (R167). -/
def Obligations.StoreRegistersToMemory : Prop :=
  ∀ (x : RegIndex) (s : State), s.addressAt x.val ≤ 0xFFF →
    ∃ t, exec (.ldMemVx x) s = .next t ∧
      (∀ k, k ≤ x → t.byteAt (s.addressAt k.val) = s.reg k) ∧
      SameMemoryOutside (s.addressAt 0) (x.val + 1) s t ∧ { t with mem := s.mem } = s

/-- FX65: `V[0]` to `V[X]` from `I` to `I + X`, `I` and the registers above X unchanged (R168). -/
def Obligations.LoadRegistersFromMemory : Prop :=
  ∀ (x : RegIndex) (s : State), s.addressAt x.val ≤ 0xFFF →
    ∃ t, exec (.ldVxMem x) s = .next t ∧
      (∀ k, k ≤ x → t.reg k = s.byteAt (s.addressAt k.val)) ∧
      (∀ k, x < k → t.reg k = s.reg k) ∧ OnlyRegsDiffer s t

/-- DXYN, FX33, FX55 and FX65 fault with the LOWEST of their addresses that is above 0xFFF (R55, R56, R202): the
spec's own decision D3 (notes/assumptions/16.md). -/
def Obligations.BlockFaultsAtLowestAddress : Prop :=
  ∀ (x y : RegIndex) (n : RowCount) (s : State) (i : Instr) (count : Nat),
    (i = .drw x y n ∧ count = n.val ∨ i = .ldBVx x ∧ count = 3 ∨
      i = .ldMemVx x ∧ count = x.val + 1 ∨ i = .ldVxMem x ∧ count = x.val + 1) →
    0 < count → 0xFFF < s.addressAt (count - 1) →
    ∃ t, exec i s = .next t ∧ FaultTaken s t (.outOfRangeAddress (max (s.addressAt 0) 0x1000))

/-- A word FX55 stores where `pc` points is the word the next step fetches (R67, R239). -/
def Obligations.StoredWordIsFetched : Prop :=
  ∀ (x k j : RegIndex) (s : State), k < x → j.val = k.val + 1 → s.addressAt x.val ≤ 0xFFF →
    s.pc.toNat = s.addressAt k.val →
    ∃ t, exec (.ldMemVx x) s = .next t ∧ fetch t = .ok (wordOfBytes (s.reg k) (s.reg j))

/-! ### Memory -/

/-- `MemRead` and `MemWrite` (R53, R54, R64): an address above 0xFFF faults with it; a byte written is read
back, every other address reads as before, and the canonical form is kept.  That such an address faults is the
spec's own decision D3 (notes/assumptions/16.md), the canonical form the model's (notes/assumptions/6.md). -/
def Obligations.MemoryReadsLatestWrite : Prop :=
  ∀ (s : State) (a : Nat) (b : Byte),
    (0xFFF < a → memRead s a = .error (.outOfRangeAddress a) ∧
      memWrite s a b = .error (.outOfRangeAddress a)) ∧
    (a ≤ 0xFFF → ∃ t, memWrite s a b = .ok t ∧ memRead t a = .ok b ∧
      (∀ c, c ≠ a → memRead t c = memRead s c) ∧ { t with mem := s.mem } = s ∧
      (Memory.wf s.cfg.font s.mem = true → Memory.wf t.cfg.font t.mem = true))

/-- The canonical form is canonical: two memories in it that hold the same 4096 bytes are one list. -/
def Obligations.CanonicalMemoryIsUnique : Prop :=
  ∀ (font : FontTable) (m m' : Memory), Memory.wf font m = true → Memory.wf font m' = true →
    (∀ a, a ≤ 0xFFF → Memory.read font m a = Memory.read font m' a) → m = m'

/-! ### The host -/

/-- DecrementDelay and DecrementSound: down by one, not below zero, nothing else (R214).  That they take effect
in `Halted` too is the model's choice (D24, notes/assumptions/11.md; R203 lets no claim read it). -/
def Obligations.TimersCountDownToZero : Prop :=
  ∀ s : State,
    (∃ t, hostAct .decrementDelay s = .next t ∧
      t.dt.toNat = (if s.dt.toNat > 0 then s.dt.toNat - 1 else s.dt.toNat) ∧
      { t with dt := s.dt } = s) ∧
    (∃ t, hostAct .decrementSound s = .next t ∧
      t.st.toNat = (if s.st.toNat > 0 then s.st.toNat - 1 else s.st.toNat) ∧
      { t with st := s.st } = s)

/-- LoadProgram: the bytes verbatim from 0x200 on, at most 3584 of them, nothing else.  A longer image is
refused and the machine does not start: no byte is copied, and in every state the host can lead it to, each
step action is refused and `pc`, the registers and memory are as they were.  A second load, a load in
`Halted` and a load after a step of any kind, completed or faulted, are refused (R216, R237).  The size and
the time are the spec's own decision D20; that they are kept in the fields `loadOpen` and `loadRefused` is
the model's, and so is that no image is accepted after a refused one (notes/assumptions/10.md, 23.md). -/
def Obligations.ProgramLoadCopiesVerbatim : Prop :=
  ∀ (bytes : List Byte) (s : State),
    (3584 < bytes.length → s.loadOpen = true → s.mode ≠ .halted →
      ∃ t, hostAct (.loadProgram bytes) s = .next t ∧
        { t with loadOpen := s.loadOpen, loadRefused := s.loadRefused } = s ∧ SameMemory s t ∧
        ∀ u, Reaches t u →
          (∀ w, (∃ r, hostAct (.step w) u = .refused r) ∧
            ∃ r, hostAct (.singleStep w) u = .refused r) ∧
          (∀ image, hostAct (.loadProgram image) u = .refused .loadClosed) ∧
          u.pc = s.pc ∧ u.v = s.v ∧ u.mem = s.mem) ∧
    (s.loadOpen = false ∨ s.mode = .halted →
      hostAct (.loadProgram bytes) s = .refused .loadClosed) ∧
    (∀ w t, hostAct (.step w) s = .next t ∨ hostAct (.singleStep w) s = .next t →
      hostAct (.loadProgram bytes) t = .refused .loadClosed) ∧
    (bytes.length ≤ 3584 → s.loadOpen = true → s.mode ≠ .halted →
      ∃ t, hostAct (.loadProgram bytes) s = .next t ∧
        (∀ k (h : k < bytes.length), t.byteAt (0x200 + k) = bytes[k]) ∧
        SameMemoryOutside 0x200 bytes.length s t ∧ t.loadOpen = false ∧
        { t with mem := s.mem, loadOpen := s.loadOpen } = s)

/-- SetKey writes one flag and ClearRedraw the redraw flag (R216 to R218).  That they take effect in `Halted`
too is the model's choice (D24, notes/assumptions/11.md; R203 lets no claim read it). -/
def Obligations.HostSetsKeysAndClearsRedraw : Prop :=
  ∀ (s : State) (k : KeyIndex) (p : Bool),
    (∃ t, hostAct (.setKey k p) s = .next t ∧ t.keyDown k = p ∧
      (∀ j, j ≠ k → t.keyDown j = s.keyDown j) ∧ { t with key := s.key } = s) ∧
    (∃ t, hostAct .clearRedraw s = .next t ∧ t.redraw = false ∧
      { t with redraw := s.redraw } = s)
end

