-- ==== Sys2Proof/Laws/Decode.lean ====
section
/-! SUPPORT. The fields of a word built from fields, and a word as the number its digits stand for
(spec/30_encoding.md R71, R72). -/

namespace Sys2Proof

@[simp] theorem nibble_toNat (x : Fin 16) : (nibble x).toNat = x.val := by
  simp [nibble]

theorem wordNNN_toNat (c : BitVec 4) (nnn : Addr12) :
    (wordNNN c nnn).toNat = 4096 * c.toNat + nnn.toNat := by
  have h := nnn.isLt
  have e : (c ++ nnn).toNat = c.toNat <<< 12 ||| nnn.toNat := BitVec.toNat_append c nnn
  rw [show wordNNN c nnn = c ++ nnn from rfl, e, Nat.shiftLeft_eq, Nat.mul_comm,
    ← Nat.two_pow_add_eq_or_of_lt h]

theorem wordXNN_toNat (c : BitVec 4) (x : RegIndex) (nn : Byte) :
    (wordXNN c x nn).toNat = 4096 * c.toNat + (256 * x.val + nn.toNat) := by
  have h : ((nibble x ++ nn : BitVec 12)).toNat = 256 * x.val + nn.toNat := by
    have hn := nn.isLt
    have e : (nibble x ++ nn : BitVec 12).toNat = (nibble x).toNat <<< 8 ||| nn.toNat :=
      BitVec.toNat_append (nibble x) nn
    rw [e, Nat.shiftLeft_eq, Nat.mul_comm, ← Nat.two_pow_add_eq_or_of_lt hn, nibble_toNat]
  rw [show wordXNN c x nn = wordNNN c (nibble x ++ nn : BitVec 12) from rfl, wordNNN_toNat, h]

theorem wordXYN_toNat (c : BitVec 4) (x y : RegIndex) (n : BitVec 4) :
    (wordXYN c x y n).toNat = 4096 * c.toNat + (256 * x.val + (16 * y.val + n.toNat)) := by
  have h : ((nibble y ++ n : BitVec 8)).toNat = 16 * y.val + n.toNat := by
    have hn := n.isLt
    have e : (nibble y ++ n : BitVec 8).toNat = (nibble y).toNat <<< 4 ||| n.toNat :=
      BitVec.toNat_append (nibble y) n
    rw [e, Nat.shiftLeft_eq, Nat.mul_comm, ← Nat.two_pow_add_eq_or_of_lt hn, nibble_toNat]
  rw [show wordXYN c x y n = wordXNN c x (nibble y ++ n : BitVec 8) from rfl, wordXNN_toNat, h]

/-! ### The fields as digits of the word's number -/

theorem fieldC_toNat (w : Word) : (fieldC w).toNat = w.toNat / 4096 := by
  have h := w.isLt
  simp only [fieldC, BitVec.extractLsb'_toNat, Nat.shiftRight_eq_div_pow]
  omega

theorem fieldX_val (w : Word) : (fieldX w).val = w.toNat / 256 % 16 := by
  simp only [fieldX, BitVec.extractLsb'_toNat, Nat.shiftRight_eq_div_pow]

theorem fieldY_val (w : Word) : (fieldY w).val = w.toNat / 16 % 16 := by
  simp only [fieldY, BitVec.extractLsb'_toNat, Nat.shiftRight_eq_div_pow]

theorem fieldN_val (w : Word) : (fieldN w).val = w.toNat % 16 := by
  simp only [fieldN, BitVec.extractLsb'_toNat, Nat.shiftRight_eq_div_pow]
  omega

theorem fieldNN_toNat (w : Word) : (fieldNN w).toNat = w.toNat % 256 := by
  simp only [fieldNN, BitVec.extractLsb'_toNat, Nat.shiftRight_eq_div_pow]
  omega

theorem fieldNNN_toNat (w : Word) : (fieldNNN w).toNat = w.toNat % 4096 := by
  simp only [fieldNNN, BitVec.extractLsb'_toNat, Nat.shiftRight_eq_div_pow]
  omega

/-! ### The fields of the three formats -/

@[simp] theorem fieldC_wordNNN (c : BitVec 4) (nnn : Addr12) : fieldC (wordNNN c nnn) = c := by
  apply BitVec.eq_of_toNat_eq
  have := nnn.isLt
  rw [fieldC_toNat, wordNNN_toNat]
  omega

@[simp] theorem fieldNNN_wordNNN (c : BitVec 4) (nnn : Addr12) :
    fieldNNN (wordNNN c nnn) = nnn := by
  apply BitVec.eq_of_toNat_eq
  have := nnn.isLt
  rw [fieldNNN_toNat, wordNNN_toNat]
  omega

@[simp] theorem fieldC_wordXNN (c : BitVec 4) (x : RegIndex) (nn : Byte) :
    fieldC (wordXNN c x nn) = c := fieldC_wordNNN c _

@[simp] theorem fieldX_wordXNN (c : BitVec 4) (x : RegIndex) (nn : Byte) :
    fieldX (wordXNN c x nn) = x := by
  apply Fin.ext
  have := nn.isLt
  have := x.isLt
  rw [fieldX_val, wordXNN_toNat]
  omega

@[simp] theorem fieldNN_wordXNN (c : BitVec 4) (x : RegIndex) (nn : Byte) :
    fieldNN (wordXNN c x nn) = nn := by
  apply BitVec.eq_of_toNat_eq
  have := nn.isLt
  rw [fieldNN_toNat, wordXNN_toNat]
  omega

@[simp] theorem fieldC_wordXYN (c : BitVec 4) (x y : RegIndex) (n : BitVec 4) :
    fieldC (wordXYN c x y n) = c := fieldC_wordNNN c _

@[simp] theorem fieldX_wordXYN (c : BitVec 4) (x y : RegIndex) (n : BitVec 4) :
    fieldX (wordXYN c x y n) = x := fieldX_wordXNN c x _

@[simp] theorem fieldY_wordXYN (c : BitVec 4) (x y : RegIndex) (n : BitVec 4) :
    fieldY (wordXYN c x y n) = y := by
  apply Fin.ext
  have := n.isLt
  have := y.isLt
  rw [fieldY_val, wordXYN_toNat]
  omega

@[simp] theorem fieldN_wordXYN (c : BitVec 4) (x y : RegIndex) (n : BitVec 4) :
    (fieldN (wordXYN c x y n)).val = n.toNat := by
  have := n.isLt
  rw [fieldN_val, wordXYN_toNat]
  omega

/-! ### Words from their digits -/

/-- A word is its class nibble and its address-12. -/
theorem word_eq_wordNNN (w : Word) : w = wordNNN (fieldC w) (fieldNNN w) := by
  apply BitVec.eq_of_toNat_eq
  rw [wordNNN_toNat, fieldC_toNat, fieldNNN_toNat]
  omega

/-- A word is its class nibble, register-X index and immediate byte. -/
theorem word_eq_wordXNN (w : Word) : w = wordXNN (fieldC w) (fieldX w) (fieldNN w) := by
  apply BitVec.eq_of_toNat_eq
  rw [wordXNN_toNat, fieldC_toNat, fieldX_val, fieldNN_toNat]
  omega

/-- A word is its class nibble, two register indices and low nibble. -/
theorem word_eq_wordXYN (w : Word) :
    w = wordXYN (fieldC w) (fieldX w) (fieldY w) (nibble (fieldN w)) := by
  apply BitVec.eq_of_toNat_eq
  rw [wordXYN_toNat, fieldC_toNat, fieldX_val, fieldY_val, nibble_toNat, fieldN_val]
  omega

theorem ofNat_eq_wordNNN (c : BitVec 4) (nnn : Addr12) :
    BitVec.ofNat 16 (4096 * c.toNat + nnn.toNat) = wordNNN c nnn := by
  rw [← wordNNN_toNat, BitVec.ofNat_toNat, BitVec.setWidth_eq]

theorem ofNat_eq_wordXNN (c : BitVec 4) (x : RegIndex) (nn : Byte) :
    BitVec.ofNat 16 (4096 * c.toNat + (256 * x.val + nn.toNat)) = wordXNN c x nn := by
  rw [← wordXNN_toNat, BitVec.ofNat_toNat, BitVec.setWidth_eq]

theorem ofNat_eq_wordXYN (c : BitVec 4) (x y : RegIndex) (n : BitVec 4) :
    BitVec.ofNat 16 (4096 * c.toNat + (256 * x.val + (16 * y.val + n.toNat))) =
      wordXYN c x y n := by
  rw [← wordXYN_toNat, BitVec.ofNat_toNat, BitVec.setWidth_eq]

theorem wordOfBytes_toNat (hi lo : Byte) :
    (wordOfBytes hi lo).toNat = hi.toNat * 256 + lo.toNat := by
  have h := lo.isLt
  have e : (hi ++ lo : Word).toNat = hi.toNat <<< 8 ||| lo.toNat := BitVec.toNat_append hi lo
  rw [show wordOfBytes hi lo = hi ++ lo from rfl, e, Nat.shiftLeft_eq, Nat.mul_comm,
    ← Nat.two_pow_add_eq_or_of_lt h]

/-- The two bytes of a word give it back (R57). -/
@[simp] theorem wordOfBytes_highByte_lowByte (w : Word) :
    wordOfBytes (highByte w) (lowByte w) = w := by
  apply BitVec.eq_of_toNat_eq
  have h := w.isLt
  rw [wordOfBytes_toNat]
  simp only [highByte, lowByte, BitVec.extractLsb'_toNat, Nat.shiftRight_eq_div_pow]
  omega

end Sys2Proof
end

