-- ==== Sys2Proof/Laws/State.lean ====
section
/-! SUPPORT. One lemma per field for each update of the state, so that no later proof unfolds a record
update; and what the updates do to the fields they write. -/

namespace Sys2Proof.Machine

/-! ### `setReg` -/

@[simp] theorem setReg_regI (s : State) (x : RegIndex) (b : Byte) : (s.setReg x b).regI = s.regI := rfl

@[simp] theorem setReg_pc (s : State) (x : RegIndex) (b : Byte) : (s.setReg x b).pc = s.pc := rfl

@[simp] theorem setReg_sp (s : State) (x : RegIndex) (b : Byte) : (s.setReg x b).sp = s.sp := rfl

@[simp] theorem setReg_stack (s : State) (x : RegIndex) (b : Byte) : (s.setReg x b).stack = s.stack := rfl

@[simp] theorem setReg_dt (s : State) (x : RegIndex) (b : Byte) : (s.setReg x b).dt = s.dt := rfl

@[simp] theorem setReg_st (s : State) (x : RegIndex) (b : Byte) : (s.setReg x b).st = s.st := rfl

@[simp] theorem setReg_disp (s : State) (x : RegIndex) (b : Byte) : (s.setReg x b).disp = s.disp := rfl

@[simp] theorem setReg_redraw (s : State) (x : RegIndex) (b : Byte) : (s.setReg x b).redraw = s.redraw := rfl

@[simp] theorem setReg_mem (s : State) (x : RegIndex) (b : Byte) : (s.setReg x b).mem = s.mem := rfl

@[simp] theorem setReg_key (s : State) (x : RegIndex) (b : Byte) : (s.setReg x b).key = s.key := rfl

@[simp] theorem setReg_ir (s : State) (x : RegIndex) (b : Byte) : (s.setReg x b).ir = s.ir := rfl

@[simp] theorem setReg_mode (s : State) (x : RegIndex) (b : Byte) : (s.setReg x b).mode = s.mode := rfl

@[simp] theorem setReg_fault (s : State) (x : RegIndex) (b : Byte) : (s.setReg x b).fault = s.fault := rfl

@[simp] theorem setReg_cfg (s : State) (x : RegIndex) (b : Byte) : (s.setReg x b).cfg = s.cfg := rfl

@[simp] theorem setReg_draws (s : State) (x : RegIndex) (b : Byte) : (s.setReg x b).draws = s.draws := rfl

@[simp] theorem setReg_loadOpen (s : State) (x : RegIndex) (b : Byte) : (s.setReg x b).loadOpen = s.loadOpen := rfl

@[simp] theorem setReg_loadRefused (s : State) (x : RegIndex) (b : Byte) : (s.setReg x b).loadRefused = s.loadRefused := rfl

/-! ### `setResultAndFlag` -/

@[simp] theorem setResultAndFlag_regI (s : State) (x : RegIndex) (b f : Byte) : (s.setResultAndFlag x b f).regI = s.regI := rfl

@[simp] theorem setResultAndFlag_pc (s : State) (x : RegIndex) (b f : Byte) : (s.setResultAndFlag x b f).pc = s.pc := rfl

@[simp] theorem setResultAndFlag_sp (s : State) (x : RegIndex) (b f : Byte) : (s.setResultAndFlag x b f).sp = s.sp := rfl

@[simp] theorem setResultAndFlag_stack (s : State) (x : RegIndex) (b f : Byte) : (s.setResultAndFlag x b f).stack = s.stack := rfl

@[simp] theorem setResultAndFlag_dt (s : State) (x : RegIndex) (b f : Byte) : (s.setResultAndFlag x b f).dt = s.dt := rfl

@[simp] theorem setResultAndFlag_st (s : State) (x : RegIndex) (b f : Byte) : (s.setResultAndFlag x b f).st = s.st := rfl

@[simp] theorem setResultAndFlag_disp (s : State) (x : RegIndex) (b f : Byte) : (s.setResultAndFlag x b f).disp = s.disp := rfl

@[simp] theorem setResultAndFlag_redraw (s : State) (x : RegIndex) (b f : Byte) : (s.setResultAndFlag x b f).redraw = s.redraw := rfl

@[simp] theorem setResultAndFlag_mem (s : State) (x : RegIndex) (b f : Byte) : (s.setResultAndFlag x b f).mem = s.mem := rfl

@[simp] theorem setResultAndFlag_key (s : State) (x : RegIndex) (b f : Byte) : (s.setResultAndFlag x b f).key = s.key := rfl

@[simp] theorem setResultAndFlag_ir (s : State) (x : RegIndex) (b f : Byte) : (s.setResultAndFlag x b f).ir = s.ir := rfl

@[simp] theorem setResultAndFlag_mode (s : State) (x : RegIndex) (b f : Byte) : (s.setResultAndFlag x b f).mode = s.mode := rfl

@[simp] theorem setResultAndFlag_fault (s : State) (x : RegIndex) (b f : Byte) : (s.setResultAndFlag x b f).fault = s.fault := rfl

@[simp] theorem setResultAndFlag_cfg (s : State) (x : RegIndex) (b f : Byte) : (s.setResultAndFlag x b f).cfg = s.cfg := rfl

@[simp] theorem setResultAndFlag_draws (s : State) (x : RegIndex) (b f : Byte) : (s.setResultAndFlag x b f).draws = s.draws := rfl

@[simp] theorem setResultAndFlag_loadOpen (s : State) (x : RegIndex) (b f : Byte) : (s.setResultAndFlag x b f).loadOpen = s.loadOpen := rfl

@[simp] theorem setResultAndFlag_loadRefused (s : State) (x : RegIndex) (b f : Byte) : (s.setResultAndFlag x b f).loadRefused = s.loadRefused := rfl

/-! ### `putByte` -/

@[simp] theorem putByte_v (s : State) (a : Nat) (b : Byte) : (s.putByte a b).v = s.v := rfl

@[simp] theorem putByte_regI (s : State) (a : Nat) (b : Byte) : (s.putByte a b).regI = s.regI := rfl

@[simp] theorem putByte_pc (s : State) (a : Nat) (b : Byte) : (s.putByte a b).pc = s.pc := rfl

@[simp] theorem putByte_sp (s : State) (a : Nat) (b : Byte) : (s.putByte a b).sp = s.sp := rfl

@[simp] theorem putByte_stack (s : State) (a : Nat) (b : Byte) : (s.putByte a b).stack = s.stack := rfl

@[simp] theorem putByte_dt (s : State) (a : Nat) (b : Byte) : (s.putByte a b).dt = s.dt := rfl

@[simp] theorem putByte_st (s : State) (a : Nat) (b : Byte) : (s.putByte a b).st = s.st := rfl

@[simp] theorem putByte_disp (s : State) (a : Nat) (b : Byte) : (s.putByte a b).disp = s.disp := rfl

@[simp] theorem putByte_redraw (s : State) (a : Nat) (b : Byte) : (s.putByte a b).redraw = s.redraw := rfl

@[simp] theorem putByte_key (s : State) (a : Nat) (b : Byte) : (s.putByte a b).key = s.key := rfl

@[simp] theorem putByte_ir (s : State) (a : Nat) (b : Byte) : (s.putByte a b).ir = s.ir := rfl

@[simp] theorem putByte_mode (s : State) (a : Nat) (b : Byte) : (s.putByte a b).mode = s.mode := rfl

@[simp] theorem putByte_fault (s : State) (a : Nat) (b : Byte) : (s.putByte a b).fault = s.fault := rfl

@[simp] theorem putByte_cfg (s : State) (a : Nat) (b : Byte) : (s.putByte a b).cfg = s.cfg := rfl

@[simp] theorem putByte_draws (s : State) (a : Nat) (b : Byte) : (s.putByte a b).draws = s.draws := rfl

@[simp] theorem putByte_loadOpen (s : State) (a : Nat) (b : Byte) : (s.putByte a b).loadOpen = s.loadOpen := rfl

@[simp] theorem putByte_loadRefused (s : State) (a : Nat) (b : Byte) : (s.putByte a b).loadRefused = s.loadRefused := rfl

/-! ### `putKey` -/

@[simp] theorem putKey_v (s : State) (k : KeyIndex) (p : Bool) : (s.putKey k p).v = s.v := rfl

@[simp] theorem putKey_regI (s : State) (k : KeyIndex) (p : Bool) : (s.putKey k p).regI = s.regI := rfl

@[simp] theorem putKey_pc (s : State) (k : KeyIndex) (p : Bool) : (s.putKey k p).pc = s.pc := rfl

@[simp] theorem putKey_sp (s : State) (k : KeyIndex) (p : Bool) : (s.putKey k p).sp = s.sp := rfl

@[simp] theorem putKey_stack (s : State) (k : KeyIndex) (p : Bool) : (s.putKey k p).stack = s.stack := rfl

@[simp] theorem putKey_dt (s : State) (k : KeyIndex) (p : Bool) : (s.putKey k p).dt = s.dt := rfl

@[simp] theorem putKey_st (s : State) (k : KeyIndex) (p : Bool) : (s.putKey k p).st = s.st := rfl

@[simp] theorem putKey_disp (s : State) (k : KeyIndex) (p : Bool) : (s.putKey k p).disp = s.disp := rfl

@[simp] theorem putKey_redraw (s : State) (k : KeyIndex) (p : Bool) : (s.putKey k p).redraw = s.redraw := rfl

@[simp] theorem putKey_mem (s : State) (k : KeyIndex) (p : Bool) : (s.putKey k p).mem = s.mem := rfl

@[simp] theorem putKey_ir (s : State) (k : KeyIndex) (p : Bool) : (s.putKey k p).ir = s.ir := rfl

@[simp] theorem putKey_mode (s : State) (k : KeyIndex) (p : Bool) : (s.putKey k p).mode = s.mode := rfl

@[simp] theorem putKey_fault (s : State) (k : KeyIndex) (p : Bool) : (s.putKey k p).fault = s.fault := rfl

@[simp] theorem putKey_cfg (s : State) (k : KeyIndex) (p : Bool) : (s.putKey k p).cfg = s.cfg := rfl

@[simp] theorem putKey_draws (s : State) (k : KeyIndex) (p : Bool) : (s.putKey k p).draws = s.draws := rfl

@[simp] theorem putKey_loadOpen (s : State) (k : KeyIndex) (p : Bool) : (s.putKey k p).loadOpen = s.loadOpen := rfl

@[simp] theorem putKey_loadRefused (s : State) (k : KeyIndex) (p : Bool) : (s.putKey k p).loadRefused = s.loadRefused := rfl

/-! ### `withSprite` -/

@[simp] theorem withSprite_regI (s : State) (x y : Byte) (rows : List Byte) : (s.withSprite x y rows).regI = s.regI := rfl

@[simp] theorem withSprite_pc (s : State) (x y : Byte) (rows : List Byte) : (s.withSprite x y rows).pc = s.pc := rfl

@[simp] theorem withSprite_sp (s : State) (x y : Byte) (rows : List Byte) : (s.withSprite x y rows).sp = s.sp := rfl

@[simp] theorem withSprite_stack (s : State) (x y : Byte) (rows : List Byte) : (s.withSprite x y rows).stack = s.stack := rfl

@[simp] theorem withSprite_dt (s : State) (x y : Byte) (rows : List Byte) : (s.withSprite x y rows).dt = s.dt := rfl

@[simp] theorem withSprite_st (s : State) (x y : Byte) (rows : List Byte) : (s.withSprite x y rows).st = s.st := rfl

@[simp] theorem withSprite_mem (s : State) (x y : Byte) (rows : List Byte) : (s.withSprite x y rows).mem = s.mem := rfl

@[simp] theorem withSprite_key (s : State) (x y : Byte) (rows : List Byte) : (s.withSprite x y rows).key = s.key := rfl

@[simp] theorem withSprite_ir (s : State) (x y : Byte) (rows : List Byte) : (s.withSprite x y rows).ir = s.ir := rfl

@[simp] theorem withSprite_mode (s : State) (x y : Byte) (rows : List Byte) : (s.withSprite x y rows).mode = s.mode := rfl

@[simp] theorem withSprite_fault (s : State) (x y : Byte) (rows : List Byte) : (s.withSprite x y rows).fault = s.fault := rfl

@[simp] theorem withSprite_cfg (s : State) (x y : Byte) (rows : List Byte) : (s.withSprite x y rows).cfg = s.cfg := rfl

@[simp] theorem withSprite_draws (s : State) (x y : Byte) (rows : List Byte) : (s.withSprite x y rows).draws = s.draws := rfl

@[simp] theorem withSprite_loadOpen (s : State) (x y : Byte) (rows : List Byte) : (s.withSprite x y rows).loadOpen = s.loadOpen := rfl

@[simp] theorem withSprite_loadRefused (s : State) (x y : Byte) (rows : List Byte) : (s.withSprite x y rows).loadRefused = s.loadRefused := rfl

/-! ### `takeFault` -/

@[simp] theorem takeFault_v (s : State) (w : Option Word) (k : Trap) : (takeFault s w k).v = s.v := rfl

@[simp] theorem takeFault_regI (s : State) (w : Option Word) (k : Trap) : (takeFault s w k).regI = s.regI := rfl

@[simp] theorem takeFault_pc (s : State) (w : Option Word) (k : Trap) : (takeFault s w k).pc = s.pc := rfl

@[simp] theorem takeFault_sp (s : State) (w : Option Word) (k : Trap) : (takeFault s w k).sp = s.sp := rfl

@[simp] theorem takeFault_stack (s : State) (w : Option Word) (k : Trap) : (takeFault s w k).stack = s.stack := rfl

@[simp] theorem takeFault_dt (s : State) (w : Option Word) (k : Trap) : (takeFault s w k).dt = s.dt := rfl

@[simp] theorem takeFault_st (s : State) (w : Option Word) (k : Trap) : (takeFault s w k).st = s.st := rfl

@[simp] theorem takeFault_disp (s : State) (w : Option Word) (k : Trap) : (takeFault s w k).disp = s.disp := rfl

@[simp] theorem takeFault_redraw (s : State) (w : Option Word) (k : Trap) : (takeFault s w k).redraw = s.redraw := rfl

@[simp] theorem takeFault_mem (s : State) (w : Option Word) (k : Trap) : (takeFault s w k).mem = s.mem := rfl

@[simp] theorem takeFault_key (s : State) (w : Option Word) (k : Trap) : (takeFault s w k).key = s.key := rfl

@[simp] theorem takeFault_ir (s : State) (w : Option Word) (k : Trap) : (takeFault s w k).ir = s.ir := rfl

@[simp] theorem takeFault_cfg (s : State) (w : Option Word) (k : Trap) : (takeFault s w k).cfg = s.cfg := rfl

@[simp] theorem takeFault_draws (s : State) (w : Option Word) (k : Trap) : (takeFault s w k).draws = s.draws := rfl

@[simp] theorem takeFault_loadOpen (s : State) (w : Option Word) (k : Trap) : (takeFault s w k).loadOpen = s.loadOpen := rfl

@[simp] theorem takeFault_loadRefused (s : State) (w : Option Word) (k : Trap) : (takeFault s w k).loadRefused = s.loadRefused := rfl

/-! ### `raise` -/

@[simp] theorem raise_v (s : State) (k : Trap) : (raise s k).v = s.v := rfl

@[simp] theorem raise_regI (s : State) (k : Trap) : (raise s k).regI = s.regI := rfl

@[simp] theorem raise_sp (s : State) (k : Trap) : (raise s k).sp = s.sp := rfl

@[simp] theorem raise_stack (s : State) (k : Trap) : (raise s k).stack = s.stack := rfl

@[simp] theorem raise_dt (s : State) (k : Trap) : (raise s k).dt = s.dt := rfl

@[simp] theorem raise_st (s : State) (k : Trap) : (raise s k).st = s.st := rfl

@[simp] theorem raise_disp (s : State) (k : Trap) : (raise s k).disp = s.disp := rfl

@[simp] theorem raise_redraw (s : State) (k : Trap) : (raise s k).redraw = s.redraw := rfl

@[simp] theorem raise_mem (s : State) (k : Trap) : (raise s k).mem = s.mem := rfl

@[simp] theorem raise_key (s : State) (k : Trap) : (raise s k).key = s.key := rfl

@[simp] theorem raise_ir (s : State) (k : Trap) : (raise s k).ir = s.ir := rfl

@[simp] theorem raise_cfg (s : State) (k : Trap) : (raise s k).cfg = s.cfg := rfl

@[simp] theorem raise_draws (s : State) (k : Trap) : (raise s k).draws = s.draws := rfl

@[simp] theorem raise_loadOpen (s : State) (k : Trap) : (raise s k).loadOpen = s.loadOpen := rfl

@[simp] theorem raise_loadRefused (s : State) (k : Trap) : (raise s k).loadRefused = s.loadRefused := rfl

/-! ### What is written -/

@[simp] theorem takeFault_mode (s : State) (w : Option Word) (k : Trap) :
    (takeFault s w k).mode = .halted := rfl

@[simp] theorem takeFault_fault (s : State) (w : Option Word) (k : Trap) :
    (takeFault s w k).fault = some { kind := k, word := w, startPc := s.pc } := rfl

@[simp] theorem raise_mode (s : State) (k : Trap) : (raise s k).mode = .halted := rfl

@[simp] theorem raise_pc (s : State) (k : Trap) : (raise s k).pc = s.pc - 2#16 := rfl

@[simp] theorem raise_fault (s : State) (k : Trap) :
    (raise s k).fault = some { kind := k, word := some s.ir, startPc := s.pc - 2#16 } := rfl

theorem reg_setReg (s : State) (x r : RegIndex) (b : Byte) :
    (s.setReg x b).reg r = if r = x then b else s.reg r := by
  simp only [State.reg, State.setReg, Vector.get_eq_getElem, Vector.getElem_set]
  simp only [Fin.ext_iff, eq_comm]

@[simp] theorem reg_setReg_same (s : State) (x : RegIndex) (b : Byte) :
    (s.setReg x b).reg x = b := by
  simp [reg_setReg]

@[simp] theorem reg_setReg_of_ne (s : State) {x r : RegIndex} (b : Byte) (h : r ≠ x) :
    (s.setReg x b).reg r = s.reg r := by
  simp [reg_setReg, h]

theorem reg_setResultAndFlag (s : State) (x r : RegIndex) (b f : Byte) :
    (s.setResultAndFlag x b f).reg r = if r = 15 then f else if r = x then b else s.reg r := by
  simp only [State.setResultAndFlag, reg_setReg]

theorem keyDown_putKey (s : State) (k j : KeyIndex) (p : Bool) :
    (s.putKey k p).keyDown j = if j = k then p else s.keyDown j := by
  simp only [State.keyDown, State.putKey, Vector.get_eq_getElem, Vector.getElem_set]
  simp only [Fin.ext_iff, eq_comm]

theorem cell_setCell (d : Display) (x cx : Fin 64) (y cy : Fin 32) (b : Bool) :
    (d.setCell x y b).cell cx cy = if cx = x ∧ cy = y then b else d.cell cx cy := by
  simp only [Display.cell, Display.setCell, Vector.get_eq_getElem, Vector.getElem_set]
  by_cases hy : cy = y
  · subst hy
    by_cases hx : cx = x
    · simp [hx]
    · have : x.val ≠ cx.val := fun h => hx (Fin.ext h.symm)
      simp [hx, this]
  · have : y.val ≠ cy.val := fun h => hy (Fin.ext h.symm)
    simp [hy, this]

theorem cell_clear (x : Fin 64) (y : Fin 32) : Display.clear.cell x y = false := by
  simp [Display.cell, Display.clear, Vector.get_eq_getElem]

/-- Two displays with the same cells are one. -/
theorem display_ext {d e : Display} (h : ∀ x y, d.cell x y = e.cell x y) : d = e := by
  apply Vector.ext
  intro i hi
  apply Vector.ext
  intro j hj
  simpa [Display.cell, Vector.get_eq_getElem] using h ⟨j, hj⟩ ⟨i, hi⟩

/-- Two states that differ in the registers only and hold the same register values are one. -/
theorem state_eq_of_regs {s t : State} (h : { t with v := s.v } = s)
    (hr : ∀ r, t.reg r = s.reg r) : t = s := by
  have hv : t.v = s.v := by
    apply Vector.ext
    intro i hi
    simpa [State.reg, Vector.get_eq_getElem] using hr ⟨i, hi⟩
  rw [← hv] at h
  exact h

end Sys2Proof.Machine
end

