-- ==== Sys2Proof/Laws/Memory.lean ====
section
/-! SUPPORT. The laws of memory: a read after a write, and that every operation keeps the canonical form
(spec/20_memory.md R50 to R56, R64). -/

namespace Sys2Proof.Machine

/-! ### Reading after erasing, listing, writing -/

theorem lookup_erase (m : Memory) (a c : Nat) :
    Memory.lookup (Memory.erase m a) c = if c = a then none else Memory.lookup m c := by
  induction m with
  | nil => simp [Memory.erase, Memory.lookup]
  | cons p rest ih =>
    obtain ⟨d, x⟩ := p
    by_cases hd : d = a
    · subst hd
      by_cases hc : c = d
      · simpa [Memory.erase, hc] using ih
      · simp [Memory.erase, Memory.lookup, ih, hc, Ne.symm hc]
    · by_cases hc : d = c
      · subst hc
        simp [Memory.erase, Memory.lookup, hd]
      · simp [Memory.erase, Memory.lookup, hd, hc, ih]

theorem lookup_insert (m : Memory) (a c : Nat) (b : Byte)
    (h : Memory.lookup m a = none) :
    Memory.lookup (Memory.insert m a b) c = if c = a then some b else Memory.lookup m c := by
  induction m with
  | nil => simp [Memory.insert, Memory.lookup, eq_comm]
  | cons p rest ih =>
    obtain ⟨d, x⟩ := p
    have hda : d ≠ a := by
      intro e
      simp [Memory.lookup, e] at h
    have hrest : Memory.lookup rest a = none := by simpa [Memory.lookup, hda] using h
    by_cases hlt : a < d
    · simp only [Memory.insert, if_pos hlt, Memory.lookup, eq_comm]
    · simp only [Memory.insert, if_neg hlt, Memory.lookup, ih hrest]
      by_cases hc : c = a
      · subst hc
        simp [hda]
      · simp [hc]

theorem read_write (font : FontTable) (m : Memory) (a c : Nat) (b : Byte) :
    Memory.read font (Memory.write font m a b) c = if c = a then b else Memory.read font m c := by
  simp only [Memory.read, Memory.write]
  split
  · next h =>
    simp only [lookup_erase]
    split
    · next hc => simp [hc, h]
    · rfl
  · rw [lookup_insert _ _ _ _ (by simp [lookup_erase])]
    by_cases hc : c = a
    · simp [hc]
    · simp [hc, lookup_erase]

@[simp] theorem byteAt_putByte (s : State) (a c : Nat) (b : Byte) :
    (s.putByte a b).byteAt c = if c = a then b else s.byteAt c :=
  read_write s.cfg.font s.mem a c b

/-- States with one configuration and one memory read alike. -/
theorem byteAt_congr {s t : State} (hm : t.mem = s.mem) (hc : t.cfg = s.cfg) (a : Nat) :
    t.byteAt a = s.byteAt a := by
  simp only [State.byteAt, hm, hc]

/-! ### The canonical form -/

theorem canonicalFrom_mono {font : FontTable} {lo lo' : Nat} {m : Memory} (h : lo' ≤ lo)
    (hm : Memory.canonicalFrom font lo m = true) : Memory.canonicalFrom font lo' m = true := by
  cases m with
  | nil => rfl
  | cons p rest =>
    obtain ⟨c, b⟩ := p
    simp only [Memory.canonicalFrom, Bool.and_eq_true, decide_eq_true_eq] at hm ⊢
    exact ⟨⟨⟨by omega, hm.1.1.2⟩, hm.1.2⟩, hm.2⟩

theorem canonicalFrom_erase {font : FontTable} {m : Memory} (a : Nat) {lo : Nat}
    (hm : Memory.canonicalFrom font lo m = true) :
    Memory.canonicalFrom font lo (Memory.erase m a) = true := by
  induction m generalizing lo with
  | nil => rfl
  | cons p rest ih =>
    obtain ⟨c, b⟩ := p
    simp only [Memory.canonicalFrom, Bool.and_eq_true, decide_eq_true_eq] at hm
    simp only [Memory.erase]
    split
    · exact canonicalFrom_mono (by omega) (ih hm.2)
    · simp only [Memory.canonicalFrom, Bool.and_eq_true, decide_eq_true_eq]
      exact ⟨hm.1, ih hm.2⟩

theorem canonicalFrom_insert {font : FontTable} {m : Memory} {a : Nat} {b : Byte} {lo : Nat}
    (hlo : lo ≤ a) (ha : a ≤ addrMax) (hb : b ≠ background font a)
    (hnone : Memory.lookup m a = none) (hm : Memory.canonicalFrom font lo m = true) :
    Memory.canonicalFrom font lo (Memory.insert m a b) = true := by
  induction m generalizing lo with
  | nil => simp [Memory.insert, Memory.canonicalFrom, hlo, ha, hb]
  | cons p rest ih =>
    obtain ⟨c, x⟩ := p
    simp only [Memory.canonicalFrom, Bool.and_eq_true, decide_eq_true_eq] at hm
    have hca : c ≠ a := by
      intro e
      simp [Memory.lookup, e] at hnone
    have hrest : Memory.lookup rest a = none := by simpa [Memory.lookup, hca] using hnone
    simp only [Memory.insert]
    split
    · next hlt =>
      simp only [Memory.canonicalFrom, Bool.and_eq_true, decide_eq_true_eq]
      exact ⟨⟨⟨hlo, ha⟩, hb⟩, ⟨⟨by omega, hm.1.1.2⟩, hm.1.2⟩, hm.2⟩
    · next hlt =>
      simp only [Memory.canonicalFrom, Bool.and_eq_true, decide_eq_true_eq]
      exact ⟨hm.1, ih (by omega) hrest hm.2⟩

theorem wf_write {font : FontTable} {m : Memory} {a : Nat} (b : Byte) (ha : a ≤ addrMax)
    (hm : Memory.wf font m = true) : Memory.wf font (Memory.write font m a b) = true := by
  simp only [Memory.wf, Memory.write] at hm ⊢
  split
  · exact canonicalFrom_erase a hm
  · next hb =>
    exact canonicalFrom_insert (Nat.zero_le a) ha hb (by simp [lookup_erase])
      (canonicalFrom_erase a hm)

theorem wf_putByte {s : State} {a : Nat} (b : Byte) (ha : a ≤ addrMax)
    (hm : Memory.wf s.cfg.font s.mem = true) :
    Memory.wf (s.putByte a b).cfg.font (s.putByte a b).mem = true :=
  wf_write b ha hm

theorem wf_reset (c : Config) :
    Memory.wf (State.resetWith c).cfg.font (State.resetWith c).mem = true := rfl

/-! ### The checked accesses (R53, R54) -/

theorem memRead_ok (s : State) {a : Nat} (h : a ≤ 0xFFF) : memRead s a = .ok (s.byteAt a) := by
  simp [memRead, addrMax, Nat.not_lt.mpr h]

theorem memRead_error (s : State) {a : Nat} (h : 0xFFF < a) :
    memRead s a = .error (.outOfRangeAddress a) := by
  simp [memRead, addrMax, h]

theorem memWrite_ok (s : State) {a : Nat} (b : Byte) (h : a ≤ 0xFFF) :
    memWrite s a b = .ok (s.putByte a b) := by
  simp [memWrite, addrMax, Nat.not_lt.mpr h]

theorem memWrite_error (s : State) {a : Nat} (b : Byte) (h : 0xFFF < a) :
    memWrite s a b = .error (.outOfRangeAddress a) := by
  simp [memWrite, addrMax, h]

/-! ### Blocks (R56) -/

/-- Every address in range: the bytes, lowest address first. -/
theorem memReadList_ok (s : State) {n : Nat} : ∀ {a : Nat}, n = 0 ∨ a + n ≤ 4096 →
    memReadList s a n = .ok ((List.range n).map fun k => s.byteAt (a + k)) := by
  induction n with
  | zero => intro a _; rfl
  | succ n ih =>
    intro a h
    have h1 : memRead s a = .ok (s.byteAt a) := memRead_ok s (by omega)
    have h2 := ih (a := a + 1) (by omega)
    simp only [memReadList, h1, h2, List.range_succ_eq_map, List.map_cons, List.map_map]
    have : (fun k => s.byteAt (a + 1 + k)) = (fun k => s.byteAt (a + k)) ∘ Nat.succ := by
      funext k
      simp only [Function.comp, Nat.succ_eq_add_one]
      congr 1
      omega
    rw [this]
    rfl

/-- Some address out of range: the fault names the lowest such address. -/
theorem memReadList_error (s : State) {n : Nat} : ∀ {a : Nat}, 0 < n → 4096 < a + n →
    memReadList s a n = .error (.outOfRangeAddress (max a 0x1000)) := by
  induction n with
  | zero => intro a h; omega
  | succ n ih =>
    intro a _ h
    by_cases ha : 0xFFF < a
    · have : max a 0x1000 = a := by omega
      simp only [memReadList, memRead_error s ha, this]
      rfl
    · have h1 : memRead s a = .ok (s.byteAt a) := memRead_ok s (by omega)
      have h2 := ih (a := a + 1) (by omega) (by omega)
      have : max (a + 1) 0x1000 = max a 0x1000 := by omega
      simp only [memReadList, h1, h2, this]
      rfl

/-- What a stored block leaves: the bytes at their addresses, every other address and every other field
as before, and the canonical form. -/
theorem memWriteList_ok (s : State) (bytes : List Byte) : ∀ {a : Nat},
    bytes = [] ∨ a + bytes.length ≤ 4096 →
    ∃ t, memWriteList s a bytes = .ok t ∧ { t with mem := s.mem } = s ∧
      (∀ k (h : k < bytes.length), t.byteAt (a + k) = bytes[k]) ∧
      (∀ c, c < a ∨ a + bytes.length ≤ c → t.byteAt c = s.byteAt c) ∧
      (Memory.wf s.cfg.font s.mem = true → Memory.wf t.cfg.font t.mem = true) := by
  induction bytes generalizing s with
  | nil =>
    intro a _
    exact ⟨s, rfl, rfl, by simp, fun _ _ => rfl, id⟩
  | cons b rest ih =>
    intro a h
    simp only [List.length_cons, reduceCtorEq, false_or] at h
    obtain ⟨t, ht, hframe, hin, hout, hwf⟩ := ih (s.putByte a b) (a := a + 1) (by omega)
    refine ⟨t, ?_, ?_, ?_, ?_, ?_⟩
    · simp only [memWriteList, memWrite_ok s b (show a ≤ 0xFFF by omega)]
      exact ht
    · exact congrArg (fun u => { u with mem := s.mem }) hframe
    · intro k hk
      cases k with
      | zero =>
        have := hout a (by omega)
        simpa using this
      | succ k =>
        have hk' : k < rest.length := by simpa using hk
        have := hin k hk'
        rw [show a + (k + 1) = a + 1 + k by omega]
        simpa using this
    · intro c hc
      have := hout c (by simp only [List.length_cons] at hc; omega)
      rw [this]
      have hca : c ≠ a := by simp only [List.length_cons] at hc; omega
      simp [hca]
    · intro hm
      exact hwf (wf_putByte b (show a ≤ addrMax by simp only [addrMax]; omega) hm)

/-- Some address out of range: the fault names the lowest such address. -/
theorem memWriteList_error (s : State) (bytes : List Byte) : ∀ {a : Nat}, bytes ≠ [] →
    4096 < a + bytes.length →
    memWriteList s a bytes = .error (.outOfRangeAddress (max a 0x1000)) := by
  induction bytes generalizing s with
  | nil => intro a h; exact absurd rfl h
  | cons b rest ih =>
    intro a _ h
    simp only [List.length_cons] at h
    by_cases ha : 0xFFF < a
    · have : max a 0x1000 = a := by omega
      simp only [memWriteList, memWrite_error s b ha, this]
      rfl
    · have hne : rest ≠ [] := by
        intro e
        simp [e] at h
        omega
      have h2 := ih (s.putByte a b) (a := a + 1) hne (by omega)
      have : max (a + 1) 0x1000 = max a 0x1000 := by omega
      simp only [memWriteList, memWrite_ok s b (show a ≤ 0xFFF by omega)]
      rw [← this]
      exact h2

end Sys2Proof.Machine
end

