-- ==== Sys2Proof/Laws/Ops.lean ====
section
/-! SUPPORT. What the shared operations can do: the checked program-counter write, skips, a handler's answer,
the stack, the key latch and the register block. -/

namespace Sys2Proof.Machine

/-! ### The program counter (R85) -/

theorem setPc_ok (s : State) {a : Nat} (h : a ≤ 0xFFF) :
    setPc s a = .ok { s with pc := BitVec.ofNat 16 a } := by
  simp [setPc, addrMax, Nat.not_lt.mpr h]

theorem setPc_error (s : State) {a : Nat} (h : 0xFFF < a) :
    setPc s a = .error (.outOfRangeAddress a) := by
  simp [setPc, addrMax, h]

/-- The program counter as `SetPC` writes it. -/
theorem ofNat_toNat_of_le {a : Nat} (h : a ≤ 0xFFF) : (BitVec.ofNat 16 a).toNat = a := by
  rw [BitVec.toNat_ofNat]
  omega

theorem ofNat_add_two (w : Word) : BitVec.ofNat 16 (w.toNat + 2) = w + 2#16 := by
  apply BitVec.eq_of_toNat_eq
  simp [BitVec.toNat_add]

theorem toNat_add_two {w : Word} (h : w.toNat ≤ 0xFFFD) : (w + 2#16).toNat = w.toNat + 2 := by
  rw [BitVec.toNat_add]
  simp only [BitVec.toNat_ofNat]
  omega

theorem toNat_sub_two {w : Word} (h : 2 ≤ w.toNat) : (w - 2#16).toNat = w.toNat - 2 := by
  have := w.isLt
  rw [BitVec.toNat_sub]
  simp only [BitVec.toNat_ofNat]
  omega

theorem skipIf_ok (c : Bool) (s : State) (h : s.pc.toNat ≤ 0xFFD) :
    skipIf c s = .ok { s with pc := if c = true then s.pc + 2#16 else s.pc } := by
  cases c with
  | false => rfl
  | true => simp [skipIf, setPc_ok s (show s.pc.toNat + 2 ≤ 0xFFF by omega), ofNat_add_two]

@[simp] theorem skipIf_false (s : State) : skipIf false s = .ok s := rfl

theorem skipIf_error (s : State) (h : 0xFFD < s.pc.toNat) :
    skipIf true s = .error (.outOfRangeAddress (s.pc.toNat + 2)) :=
  setPc_error s (show 0xFFF < s.pc.toNat + 2 by omega)

theorem beginStep_ok (s : State) (w : Word) (h : s.pc.toNat ≤ 0xFFD) :
    beginStep s w = .ok { s with ir := w, pc := s.pc + 2#16, loadOpen := false } := by
  simp only [beginStep]
  rw [setPc_ok _ (show s.pc.toNat + 2 ≤ 0xFFF by omega), ofNat_add_two]

theorem beginStep_error (s : State) (w : Word) (h : 0xFFD < s.pc.toNat) :
    beginStep s w = .error (.outOfRangeAddress (s.pc.toNat + 2)) := by
  simp only [beginStep]
  rw [setPc_error _ (show 0xFFF < s.pc.toNat + 2 by omega)]

/-! ### A handler's answer -/

@[simp] theorem deliver_ok (s t : State) : deliver s (.ok t) = .next t := rfl

@[simp] theorem deliver_error (s : State) (k : Trap) : deliver s (.error k) = .next (raise s k) := rfl

/-- A handler's answer is a next state: its own, or the fault it raises taken. -/
theorem deliver_eq_next {s t : State} {r : Except Trap State} (h : deliver s r = .next t) :
    r = .ok t ∨ ∃ k, r = .error k ∧ t = raise s k := by
  cases r with
  | ok u =>
    simp only [deliver_ok, Host.Outcome.next.injEq] at h
    exact .inl (by rw [h])
  | error k =>
    simp only [deliver_error, Host.Outcome.next.injEq] at h
    exact .inr ⟨k, rfl, h.symm⟩

/-- What the checked program-counter write can do. -/
theorem setPc_eq_ok {s t : State} {a : Nat} (h : setPc s a = .ok t) :
    a ≤ 0xFFF ∧ t = { s with pc := BitVec.ofNat 16 a } := by
  by_cases ha : a ≤ 0xFFF
  · rw [setPc_ok s ha] at h
    exact ⟨ha, (Except.ok.inj h).symm⟩
  · rw [setPc_error s (by omega)] at h
    exact absurd h (by simp)

/-- What a skip can do: leave the state, or move `pc` on by 2. -/
theorem skipIf_eq_ok {c : Bool} {s t : State} (h : skipIf c s = .ok t) :
    t = s ∨ s.pc.toNat ≤ 0xFFD ∧ t = { s with pc := s.pc + 2#16 } := by
  cases c with
  | false => exact .inl (Except.ok.inj h).symm
  | true =>
    obtain ⟨ha, ht⟩ := setPc_eq_ok h
    exact .inr ⟨by omega, by rw [ht, ofNat_add_two]⟩

/-- What a stored block can do. -/
theorem memWriteList_eq_ok {s t : State} {a : Nat} {bytes : List Byte}
    (h : memWriteList s a bytes = .ok t) :
    { t with mem := s.mem } = s ∧
      (∀ c, c < a ∨ a + bytes.length ≤ c → t.byteAt c = s.byteAt c) ∧
      (Memory.wf s.cfg.font s.mem = true → Memory.wf t.cfg.font t.mem = true) := by
  by_cases hb : bytes = [] ∨ a + bytes.length ≤ 4096
  · obtain ⟨u, hu, hf, _, hout, hwf⟩ := memWriteList_ok s bytes hb
    rw [hu] at h
    cases h
    exact ⟨hf, hout, hwf⟩
  · rw [memWriteList_error s bytes (fun e => hb (.inl e)) (by omega)] at h
    exact absurd h (by simp)

/-! ### The stack (R27, R28) -/

theorem slot_eq_getElem (s : State) {k : Nat} (h : k ≠ 0) : s.slot k = s.stack[k - 1]? := by
  simp [State.slot, h]

theorem setSlot_some (s : State) {k : Nat} (w : Word) (h1 : 1 ≤ k) (h2 : k ≤ s.stack.length) :
    s.setSlot k w = some { s with stack := s.stack.set (k - 1) w } := by
  simp [State.setSlot, h1, h2]

theorem setSlot_none (s : State) {k : Nat} (w : Word) (h : s.stack.length < k) :
    s.setSlot k w = none := by
  simp [State.setSlot, Nat.not_le.mpr h]

/-- What writing a slot can do. -/
theorem setSlot_eq_some {s t : State} {k : Nat} {w : Word} (h : s.setSlot k w = some t) :
    1 ≤ k ∧ k ≤ s.stack.length ∧ t = { s with stack := s.stack.set (k - 1) w } := by
  simp only [State.setSlot] at h
  split at h
  · next hk => exact ⟨hk.1, hk.2, (Option.some.inj h).symm⟩
  · exact absurd h (by simp)

/-! ### The register block (R168) -/

theorem setRegsFrom_frame (bytes : List Byte) : ∀ (s : State) (k : Nat),
    { s.setRegsFrom k bytes with v := s.v } = s := by
  induction bytes with
  | nil => intro s k; rfl
  | cons b rest ih =>
    intro s k
    exact congrArg (fun u => { u with v := s.v }) (ih (s.setReg (Fin.ofNat 16 k) b) (k + 1))

theorem reg_setRegsFrom (bytes : List Byte) : ∀ (s : State) (k : Nat) (r : RegIndex),
    k + bytes.length ≤ 16 →
    (s.setRegsFrom k bytes).reg r =
      if h : k ≤ r.val ∧ r.val - k < bytes.length then bytes[r.val - k]'h.2 else s.reg r := by
  induction bytes with
  | nil => intro s k r _; simp [State.setRegsFrom]
  | cons b rest ih =>
    intro s k r hk
    simp only [List.length_cons] at hk
    have hkf : (Fin.ofNat 16 k).val = k := by
      simp only [Fin.ofNat]
      omega
    simp only [State.setRegsFrom]
    rw [ih _ _ _ (by omega)]
    by_cases h1 : k + 1 ≤ r.val ∧ r.val - (k + 1) < rest.length
    · rw [dif_pos h1, dif_pos (show k ≤ r.val ∧ r.val - k < (b :: rest).length by
        simp only [List.length_cons]; omega)]
      have : r.val - k = (r.val - (k + 1)) + 1 := by omega
      simp only [this, List.getElem_cons_succ]
    · rw [dif_neg h1, reg_setReg]
      by_cases hr : r = Fin.ofNat 16 k
      · have hrv : r.val = k := by rw [hr, hkf]
        rw [if_pos hr, dif_pos (show k ≤ r.val ∧ r.val - k < (b :: rest).length by
          simp only [List.length_cons]; omega)]
        simp [hrv]
      · have hrv : r.val ≠ k := fun e => hr (Fin.ext (by rw [hkf]; exact e))
        rw [if_neg hr, dif_neg]
        simp only [List.length_cons]
        omega

theorem regsUpTo_length (s : State) (x : RegIndex) : (s.regsUpTo x).length = x.val + 1 := by
  have := x.isLt
  simp only [State.regsUpTo, List.length_take, Vector.length_toList]
  omega

theorem regsUpTo_getElem (s : State) (x k : RegIndex) (h : k.val < (s.regsUpTo x).length) :
    (s.regsUpTo x)[k.val] = s.reg k := by
  simp [State.regsUpTo, State.reg, Vector.get_eq_getElem]

/-! ### The key latch (R161) -/

theorem lowestKey_eq_none {s : State} : s.lowestKey = none ↔ ∀ k, s.keyDown k = false := by
  simp [State.lowestKey, List.find?_eq_none]

/-- The captured key is pressed and no lower key is. -/
theorem lowestKey_eq_some {s : State} {k : KeyIndex} :
    s.lowestKey = some k ↔ s.keyDown k = true ∧ ∀ j, j < k → s.keyDown j = false := by
  constructor
  · intro h
    rw [State.lowestKey, List.find?_eq_some_iff_getElem] at h
    obtain ⟨hk, i, hi, hik, hlow⟩ := h
    refine ⟨hk, fun j hj => ?_⟩
    have hiv : k.val = i := by rw [← hik]; simp
    have := hlow j.val (hiv ▸ hj)
    simpa using this
  · rintro ⟨hk, hlow⟩
    rw [State.lowestKey, List.find?_eq_some_iff_getElem]
    refine ⟨hk, k.val, by simp, by simp, fun j hj => ?_⟩
    have hk16 := k.isLt
    have := hlow ⟨j, by omega⟩ (by simpa [Fin.lt_def] using hj)
    simpa using this

/-! ### The end of a step (R203) -/

theorem settle_next (start t : State) (h : t.mode ≠ .halted) :
    settle start (.next t) = .next t := by
  simp [settle, h]

theorem settle_halted (start t : State) (h : t.mode = .halted) :
    settle start (.next t) = .next { start with mode := .halted, fault := t.fault } := by
  simp [settle, h]

/-- What the end of a step can do with a handler's answer. -/
theorem settle_eq_next {start t : State} {o : Host.Outcome State Fault Refusal}
    (h : settle start o = .next t) :
    ∃ u, o = .next u ∧
      (u.mode ≠ .halted ∧ t = u ∨
        u.mode = .halted ∧ t = { start with mode := .halted, fault := u.fault }) := by
  cases o with
  | next u =>
    by_cases hu : u.mode = .halted
    · rw [settle_halted _ _ hu] at h
      exact ⟨u, rfl, .inr ⟨hu, (Host.Outcome.next.inj h).symm⟩⟩
    · rw [settle_next _ _ hu] at h
      exact ⟨u, rfl, .inl ⟨hu, (Host.Outcome.next.inj h).symm⟩⟩
  | fault r => exact absurd h (by simp [settle])
  | refused r => exact absurd h (by simp [settle])

/-! ### Results of the byte operations -/

@[simp] theorem sumByte_toNat (a b : Byte) : (sumByte a b).toNat = (a.toNat + b.toNat) % 256 := by
  simp [sumByte]

theorem differenceByte_toNat (a b : Byte) :
    ((differenceByte a b).toNat : Int) = ((a.toNat : Int) - b.toNat) % 256 := by
  simp [differenceByte, BitVec.toNat_ofInt]
  omega

end Sys2Proof.Machine
end

