-- ==== Sys2Proof/Laws/Drawing.lean ====
section
/-! SUPPORT. The sprite loops in closed form (spec/44_display.md R151, R152): within one DRW no cell is
touched twice, so each cell is XORed with at most one sprite bit. -/

namespace Sys2Proof.Machine

theorem spriteColumn_eq_iff (x0 : Byte) {b : Nat} (hb : b < 64) (cx : Fin 64) :
    cx = spriteColumn x0 b ↔ b = (cx.val + 256 - x0.toNat) % 64 := by
  have := cx.isLt
  have := x0.isLt
  rw [Fin.ext_iff]
  simp only [spriteColumn, Fin.ofNat]
  omega

theorem spriteRow_eq_iff (y0 : Byte) {r : Nat} (hr : r < 32) (cy : Fin 32) :
    cy = spriteRow y0 r ↔ r = (cy.val + 256 - y0.toNat) % 32 := by
  have := cy.isLt
  have := y0.isLt
  rw [Fin.ext_iff]
  simp only [spriteRow, Fin.ofNat]
  omega

theorem cell_drawBit (x cx : Fin 64) (y cy : Fin 32) (bit : Bool) (c : Canvas) :
    (drawBit x y bit c).1.cell cx cy =
      xor (c.1.cell cx cy) (decide (cx = x ∧ cy = y) && bit) := by
  simp only [drawBit, cell_setCell]
  by_cases h : cx = x ∧ cy = y
  · simp [h.1, h.2]
  · simp [h]

/-- One sprite row: which cells it flips. -/
theorem cell_drawRowBits (x0 : Byte) (y : Fin 32) (row : Byte) (cx : Fin 64) (cy : Fin 32) :
    ∀ (bits : List Nat) (c : Canvas), bits.Nodup → (∀ b ∈ bits, b < 64) →
    (drawRowBits x0 y row bits c).1.cell cx cy =
      xor (c.1.cell cx cy)
        (decide (cy = y) && (decide ((cx.val + 256 - x0.toNat) % 64 ∈ bits) &&
          row.getLsbD (7 - (cx.val + 256 - x0.toNat) % 64))) := by
  intro bits
  induction bits with
  | nil => intro c _ _; simp [drawRowBits]
  | cons b rest ih =>
    intro c hnd hlt
    rw [List.nodup_cons] at hnd
    simp only [drawRowBits]
    rw [ih _ hnd.2 (fun q hq => hlt q (List.mem_cons_of_mem _ hq)), cell_drawBit]
    have hcol := spriteColumn_eq_iff x0 (hlt b List.mem_cons_self) cx
    by_cases hb : b = (cx.val + 256 - x0.toNat) % 64
    · simp [eq_true (hcol.mpr hb), ← hb, hnd.1]
    · have hcx : cx ≠ spriteColumn x0 b := fun e => hb (hcol.mp e)
      have hm : (cx.val + 256 - x0.toNat) % 64 ≠ b := fun e => hb e.symm
      simp [hcx, hm]

/-- One sprite row: when it collides. -/
theorem hit_drawRowBits (x0 : Byte) (y : Fin 32) (row : Byte) :
    ∀ (bits : List Nat) (c : Canvas), bits.Nodup → (∀ b ∈ bits, b < 64) →
    ((drawRowBits x0 y row bits c).2 = true ↔
      c.2 = true ∨ ∃ b ∈ bits, row.getLsbD (7 - b) = true ∧
        c.1.cell (spriteColumn x0 b) y = true) := by
  intro bits
  induction bits with
  | nil => intro c _ _; simp [drawRowBits]
  | cons b rest ih =>
    intro c hnd hlt
    rw [List.nodup_cons] at hnd
    simp only [drawRowBits]
    rw [ih _ hnd.2 (fun q hq => hlt q (List.mem_cons_of_mem _ hq))]
    have hsame : ∀ q ∈ rest, (drawBit (spriteColumn x0 b) y (row.getLsbD (7 - b)) c).1.cell
        (spriteColumn x0 q) y = c.1.cell (spriteColumn x0 q) y := by
      intro q hq
      have hqlt := hlt q (List.mem_cons_of_mem _ hq)
      have hne : spriteColumn x0 q ≠ spriteColumn x0 b := by
        intro e
        have h1 := (spriteColumn_eq_iff x0 hqlt (spriteColumn x0 q)).mp rfl
        have h2 := (spriteColumn_eq_iff x0 (hlt b List.mem_cons_self) (spriteColumn x0 q)).mp e
        exact hnd.1 (by rw [h2, ← h1]; exact hq)
      rw [cell_drawBit]
      simp [hne]
    have hex : (∃ q ∈ rest, row.getLsbD (7 - q) = true ∧
          (drawBit (spriteColumn x0 b) y (row.getLsbD (7 - b)) c).1.cell (spriteColumn x0 q) y =
            true) ↔
        ∃ q ∈ rest, row.getLsbD (7 - q) = true ∧ c.1.cell (spriteColumn x0 q) y = true := by
      constructor
      · rintro ⟨q, hq, h1, h2⟩
        exact ⟨q, hq, h1, (hsame q hq) ▸ h2⟩
      · rintro ⟨q, hq, h1, h2⟩
        exact ⟨q, hq, h1, (hsame q hq).symm ▸ h2⟩
    rw [hex]
    simp only [drawBit, Bool.or_eq_true, Bool.and_eq_true, List.mem_cons, exists_eq_or_imp]
    tauto

/-- All sprite rows from row `r` on: which cells they flip. -/
theorem cell_drawRows (x0 y0 : Byte) (cx : Fin 64) (cy : Fin 32) :
    ∀ (rows : List Byte) (r : Nat) (c : Canvas), r + rows.length ≤ 32 →
    (drawRows x0 y0 r rows c).1.cell cx cy =
      xor (c.1.cell cx cy)
        (decide ((cx.val + 256 - x0.toNat) % 64 < 8) &&
          (decide (r ≤ (cy.val + 256 - y0.toNat) % 32) &&
            ((rows[(cy.val + 256 - y0.toNat) % 32 - r]?).getD 0#8).getLsbD
              (7 - (cx.val + 256 - x0.toNat) % 64))) := by
  intro rows
  induction rows with
  | nil => intro r c _; simp [drawRows]
  | cons row rest ih =>
    intro r c hr
    simp only [List.length_cons] at hr
    simp only [drawRows]
    rw [ih (r + 1) _ (by omega), cell_drawRowBits _ _ _ _ _ _ _ (by decide) (by decide)]
    have hrow := spriteRow_eq_iff y0 (show r < 32 by omega) cy
    have hmem : (cx.val + 256 - x0.toNat) % 64 ∈ [0, 1, 2, 3, 4, 5, 6, 7] ↔
        (cx.val + 256 - x0.toNat) % 64 < 8 := by
      simp only [List.mem_cons, List.not_mem_nil, or_false]
      omega
    generalize hd : (cy.val + 256 - y0.toNat) % 32 = d at *
    generalize he : (cx.val + 256 - x0.toNat) % 64 = e at *
    by_cases hdr : r = d
    · have hcy := hrow.mpr hdr
      subst hdr
      simp [hcy, hmem]
    · have hcy : cy ≠ spriteRow y0 r := fun e => hdr (hrow.mp e)
      by_cases hle : r + 1 ≤ d
      · have h1 : d - r = (d - (r + 1)) + 1 := by omega
        simp [hcy, hle, h1, show r ≤ d by omega]
      · simp [hcy, hle, show ¬ r ≤ d by omega]

/-- All sprite rows from row `r` on: when they collide. -/
theorem hit_drawRows (x0 y0 : Byte) :
    ∀ (rows : List Byte) (r : Nat) (c : Canvas), r + rows.length ≤ 32 →
    ((drawRows x0 y0 r rows c).2 = true ↔
      c.2 = true ∨ ∃ (cx : Fin 64) (cy : Fin 32), c.1.cell cx cy = true ∧
        (cx.val + 256 - x0.toNat) % 64 < 8 ∧ r ≤ (cy.val + 256 - y0.toNat) % 32 ∧
        ((rows[(cy.val + 256 - y0.toNat) % 32 - r]?).getD 0#8).getLsbD
          (7 - (cx.val + 256 - x0.toNat) % 64) = true) := by
  intro rows
  induction rows with
  | nil => intro r c _; simp [drawRows]
  | cons row rest ih =>
    intro r c hr
    simp only [List.length_cons] at hr
    simp only [drawRows]
    rw [ih (r + 1) _ (by omega), hit_drawRowBits _ _ _ _ _ (by decide) (by decide), or_assoc]
    refine or_congr_right ⟨?_, ?_⟩
    · rintro (⟨b, hb, hbit, hcell⟩ | ⟨cx, cy, hcell, hcol, hrow, hbit⟩)
      · have hb8 : b < 8 := by simp only [List.mem_cons, List.not_mem_nil, or_false] at hb; omega
        have h1 := (spriteColumn_eq_iff x0 (show b < 64 by omega) (spriteColumn x0 b)).mp rfl
        have h2 := (spriteRow_eq_iff y0 (show r < 32 by omega) (spriteRow y0 r)).mp rfl
        refine ⟨_, _, hcell, by omega, by omega, ?_⟩
        rw [← h1, ← h2]
        simpa using hbit
      · have hne : cy ≠ spriteRow y0 r := fun e => by
          have := (spriteRow_eq_iff y0 (show r < 32 by omega) cy).mp e
          omega
        rw [cell_drawRowBits _ _ _ _ _ _ _ (by decide) (by decide)] at hcell
        refine ⟨cx, cy, by simpa [hne] using hcell, hcol, by omega, ?_⟩
        have e : (cy.val + 256 - y0.toNat) % 32 - r = ((cy.val + 256 - y0.toNat) % 32 - (r + 1)) + 1 := by
          omega
        rw [e, List.getElem?_cons_succ]
        exact hbit
    · rintro ⟨cx, cy, hcell, hcol, hrow, hbit⟩
      by_cases hd : r = (cy.val + 256 - y0.toNat) % 32
      · refine .inl ⟨(cx.val + 256 - x0.toNat) % 64, ?_, ?_, ?_⟩
        · simp only [List.mem_cons, List.not_mem_nil, or_false]; omega
        · simpa [← hd] using hbit
        · rw [← (spriteColumn_eq_iff x0 (Nat.mod_lt _ (by omega)) cx).mpr rfl,
            ← (spriteRow_eq_iff y0 (show r < 32 by omega) cy).mpr hd]
          exact hcell
      · have hne : cy ≠ spriteRow y0 r := fun e => hd ((spriteRow_eq_iff y0 (show r < 32 by omega) cy).mp e)
        refine .inr ⟨cx, cy, ?_, hcol, by omega, ?_⟩
        · rw [cell_drawRowBits _ _ _ _ _ _ _ (by decide) (by decide)]
          simpa [hne] using hcell
        · have e : (cy.val + 256 - y0.toNat) % 32 - r = ((cy.val + 256 - y0.toNat) % 32 - (r + 1)) + 1 := by
            omega
          rw [e, List.getElem?_cons_succ] at hbit
          exact hbit

end Sys2Proof.Machine
end

