-- ==== Sys2Proof/Laws/Exec.lean ====
section
/-! SUPPORT. Said once: what one instruction can do to the state.  Either it takes a fault, or it has the
effect below, which names every field it may write. -/

namespace Sys2Proof.Machine

/-- `t` is `s` but for the program counter, which is as it was or within memory. -/
def PcMoves (s t : State) : Prop :=
  { t with pc := s.pc } = s ∧ (t.pc = s.pc ∨ t.pc.toNat ≤ addrMax)

/-- `t` is `s` but for the registers for which `w` holds. -/
def RegsWritten (w : RegIndex → Bool) (s t : State) : Prop :=
  { t with v := s.v } = s ∧ ∀ r, w r = false → t.reg r = s.reg r

/-- `t` is `s` but for memory, in which only `n` bytes from `base` on may read otherwise. -/
def BytesWritten (base n : Nat) (s t : State) : Prop :=
  { t with mem := s.mem } = s ∧ SameMemoryOutside base n s t ∧
    (Memory.wf s.cfg.font s.mem = true → Memory.wf t.cfg.font t.mem = true)

/-- What instruction `i` may do when it takes no fault. -/
def Effect (i : Instr) (s t : State) : Prop :=
  match i with
  | .sys _ => t = s
  | .cls => { t with disp := s.disp, redraw := s.redraw } = s ∧ t.redraw = true
  | .ret => s.sp ≠ 0 ∧ { t with pc := s.pc, sp := s.sp } = s ∧ t.sp = s.sp - 1 ∧
      t.pc.toNat ≤ addrMax
  | .call _ => s.sp ≠ s.cfg.stackCapacity ∧
      { t with pc := s.pc, sp := s.sp, stack := s.stack } = s ∧ t.sp = s.sp + 1 ∧
      s.sp < s.stack.length ∧ t.stack = s.stack.set s.sp s.pc ∧ t.pc.toNat ≤ addrMax
  | .jp _ | .jpV0 _ | .seImm _ _ | .sneImm _ _ | .seReg _ _ | .sneReg _ _ | .skp _ | .sknp _ =>
      PcMoves s t
  | .ldImm _ _ | .addImm _ _ | .ldReg _ _ | .orReg _ _ | .andReg _ _ | .xorReg _ _ | .addReg _ _
  | .subReg _ _ | .shrReg _ _ | .subnReg _ _ | .shlReg _ _ | .ldVxDt _ | .ldVxMem _ =>
      RegsWritten (mayWriteReg i) s t
  | .ldI _ | .addIVx _ | .ldFVx _ => { t with regI := s.regI } = s ∧
      (s.regI.toNat < s.cfg.iaddModulus.toNat → t.regI.toNat < s.cfg.iaddModulus.toNat)
  | .rnd x _ => { t with v := s.v, draws := s.draws } = s ∧ ∀ r, r ≠ x → t.reg r = s.reg r
  | .drw _ _ _ => { t with v := s.v, disp := s.disp, redraw := s.redraw } = s ∧
      t.redraw = true ∧ ∀ r, r ≠ vfIndex → t.reg r = s.reg r
  | .ldVxK x =>
      (PcMoves s t ∧ t.pc.toNat ≤ addrMax) ∨
      ∃ k, s.lowestKey = some k ∧ { t with v := s.v, key := s.key } = s ∧
        (∀ r, r ≠ x → t.reg r = s.reg r) ∧ ∀ j, t.keyDown j = if j = k then false else s.keyDown j
  | .ldDtVx _ => { t with dt := s.dt } = s
  | .ldStVx _ => { t with st := s.st } = s
  | .ldBVx _ => BytesWritten s.regI.toNat 3 s t
  | .ldMemVx x => BytesWritten s.regI.toNat (x.val + 1) s t

theorem pcMoves_setPc {s t : State} {a : Nat} (h : setPc s a = .ok t) : PcMoves s t := by
  obtain ⟨ha, rfl⟩ := setPc_eq_ok h
  exact ⟨rfl, .inr (by rw [ofNat_toNat_of_le ha]; exact ha)⟩

theorem pcMoves_skipIf {s t : State} {c : Bool} (h : skipIf c s = .ok t) : PcMoves s t := by
  obtain rfl | ⟨hp, rfl⟩ := skipIf_eq_ok h
  · exact ⟨rfl, .inl rfl⟩
  · refine ⟨rfl, .inr ?_⟩
    simp only [toNat_add_two (show s.pc.toNat ≤ 0xFFFD by omega), addrMax]
    omega

/-- A handler whose answer is `r` takes a fault, or does what `r` does when it is a state. -/
theorem deliver_effect {s t : State} {r : Except Trap State} {P : State → Prop}
    (h : deliver s r = .next t) (hp : ∀ u, r = .ok u → P u) : (∃ k, t = raise s k) ∨ P t := by
  obtain hr | ⟨k, _, ht⟩ := deliver_eq_next h
  · exact .inr (hp t hr)
  · exact .inl ⟨k, ht⟩

theorem regsWritten_setReg {w : RegIndex → Bool} (s : State) (x : RegIndex) (b : Byte)
    (hw : ∀ r, w r = false → r ≠ x) : RegsWritten w s (s.setReg x b) :=
  ⟨rfl, fun r hr => reg_setReg_of_ne s b (hw r hr)⟩

theorem regsWritten_setResultAndFlag {w : RegIndex → Bool} (s : State) (x : RegIndex) (b f : Byte)
    (hw : ∀ r, w r = false → r ≠ x ∧ r ≠ vfIndex) :
    RegsWritten w s (s.setResultAndFlag x b f) := by
  refine ⟨rfl, fun r hr => ?_⟩
  rw [reg_setResultAndFlag, if_neg (hw r hr).2, if_neg (hw r hr).1]

theorem ret_effect {s t : State} (h : execRet s = .next t) :
    (∃ k, t = raise s k) ∨ Effect .ret s t := by
  simp only [execRet] at h
  split at h
  · exact .inl ⟨_, (Host.Outcome.next.inj h).symm⟩
  · next hsp =>
    split at h
    · exact absurd h (by simp)
    · next target _ =>
      refine deliver_effect h fun u hu => ?_
      cases hset : setPc s target.toNat with
      | error k => rw [hset] at hu; exact absurd hu (by simp [Except.map])
      | ok w =>
        obtain ⟨ha, rfl⟩ := setPc_eq_ok hset
        rw [hset] at hu
        obtain rfl := Except.ok.inj hu
        exact ⟨hsp, rfl, rfl, by
          show (BitVec.ofNat 16 target.toNat).toNat ≤ addrMax
          rw [ofNat_toNat_of_le ha]; exact ha⟩

theorem call_effect {nnn : Addr12} {s t : State} (h : execCall nnn s = .next t) :
    (∃ k, t = raise s k) ∨ Effect (.call nnn) s t := by
  simp only [execCall] at h
  split at h
  · exact .inl ⟨_, (Host.Outcome.next.inj h).symm⟩
  · next hsp =>
    split at h
    · exact absurd h (by simp)
    · next v hv =>
      obtain ⟨_, hlen, rfl⟩ := setSlot_eq_some hv
      refine (deliver_eq_next h).elim (fun hu => ?_) (fun ⟨k, hk, _⟩ => ?_)
      · obtain ⟨ha, rfl⟩ := setPc_eq_ok hu
        refine .inr ⟨hsp, rfl, rfl, by simpa using hlen, rfl, ?_⟩
        show (BitVec.ofNat 16 nnn.toNat).toNat ≤ addrMax
        rw [ofNat_toNat_of_le ha]; exact ha
      · have := nnn.isLt
        rw [setPc_ok _ (show nnn.toNat ≤ 0xFFF by omega)] at hk
        exact absurd hk (by simp)

/-- What a single instruction can do: take a fault, or have its effect. -/
theorem exec_effect {i : Instr} {s t : State} (h : exec i s = .next t) :
    (∃ k, t = raise s k) ∨ Effect i s t := by
  cases i with
  | sys nnn => exact .inr (Host.Outcome.next.inj h).symm
  | cls => exact .inr (by obtain rfl := Host.Outcome.next.inj h; exact ⟨rfl, rfl⟩)
  | ret => exact ret_effect h
  | call nnn => exact call_effect h
  | jp nnn => exact deliver_effect h fun u hu => pcMoves_setPc hu
  | jpV0 nnn => exact deliver_effect h fun u hu => pcMoves_setPc hu
  | seImm x nn => exact deliver_effect h fun u hu => pcMoves_skipIf hu
  | sneImm x nn => exact deliver_effect h fun u hu => pcMoves_skipIf hu
  | seReg x y => exact deliver_effect h fun u hu => pcMoves_skipIf hu
  | sneReg x y => exact deliver_effect h fun u hu => pcMoves_skipIf hu
  | skp x =>
    refine deliver_effect h fun u hu => ?_
    cases hq : keyQuery x s with
    | error k => rw [hq] at hu; exact absurd hu (by simp [Except.bind])
    | ok d => rw [hq] at hu; exact pcMoves_skipIf hu
  | sknp x =>
    refine deliver_effect h fun u hu => ?_
    cases hq : keyQuery x s with
    | error k => rw [hq] at hu; exact absurd hu (by simp [Except.bind])
    | ok d => rw [hq] at hu; exact pcMoves_skipIf hu
  | ldImm x nn | addImm x nn | ldReg x y | orReg x y | andReg x y | xorReg x y | ldVxDt x =>
    obtain rfl := Host.Outcome.next.inj h
    exact .inr (regsWritten_setReg s _ _ fun r hr => by simpa [mayWriteReg] using hr)
  | addReg x y | subReg x y | shrReg x y | subnReg x y | shlReg x y =>
    obtain rfl := Host.Outcome.next.inj h
    exact .inr (regsWritten_setResultAndFlag s _ _ _ fun r hr => by simpa [mayWriteReg] using hr)
  | ldVxMem x =>
    refine deliver_effect h fun u hu => ?_
    by_cases hr : s.addressAt 0 + (x.val + 1) ≤ 4096
    · rw [memReadList_ok s (.inr hr)] at hu
      obtain rfl := Except.ok.inj hu
      refine ⟨setRegsFrom_frame _ s 0, fun r hw => ?_⟩
      have hx := x.isLt
      rw [reg_setRegsFrom _ _ _ _ (by simp only [List.length_map, List.length_range]; omega),
        dif_neg]
      simp only [List.length_map, List.length_range]
      have hlt : x.val < r.val := Nat.lt_of_not_le (of_decide_eq_false hw)
      rw [Nat.sub_zero]
      omega
    · rw [memReadList_error s (by omega) (by omega)] at hu
      exact absurd hu (by simp [Except.map])
  | ldI nnn =>
    obtain rfl := Host.Outcome.next.inj h
    refine .inr ⟨rfl, fun _ => ?_⟩
    have hn := nnn.isLt
    show (nnn.setWidth 16).toNat < s.cfg.iaddModulus.toNat
    rw [BitVec.toNat_setWidth]
    cases s.cfg.iaddModulus <;> simp only [IAddModulus.toNat] <;> omega
  | addIVx x =>
    obtain rfl := Host.Outcome.next.inj h
    refine .inr ⟨rfl, fun _ => ?_⟩
    show (s.indexSum x).toNat < s.cfg.iaddModulus.toNat
    simp only [State.indexSum, BitVec.toNat_ofNat]
    cases s.cfg.iaddModulus <;> simp only [IAddModulus.toNat] <;> omega
  | ldFVx x =>
    obtain rfl := Host.Outcome.next.inj h
    refine .inr ⟨rfl, fun _ => ?_⟩
    have hb := (s.reg x).isLt
    show (glyphAddress (s.reg x)).toNat < s.cfg.iaddModulus.toNat
    rw [glyphAddress, BitVec.toNat_ofNat, Nat.mod_eq_of_lt (by omega)]
    cases s.cfg.iaddModulus <;> simp only [IAddModulus.toNat] <;> omega
  | rnd x nn =>
    obtain rfl := Host.Outcome.next.inj h
    exact .inr ⟨rfl, fun r hr => reg_setReg_of_ne s _ hr⟩
  | drw x y n =>
    refine deliver_effect h fun u hu => ?_
    cases hq : memReadList s (s.addressAt 0) n.val with
    | error k => rw [hq] at hu; exact absurd hu (by simp [Except.map])
    | ok rows =>
      rw [hq] at hu
      obtain rfl := Except.ok.inj hu
      exact ⟨rfl, rfl, fun r hr => reg_setReg_of_ne s _ hr⟩
  | ldVxK x =>
    simp only [exec, execLdVxK] at h
    split at h
    · refine deliver_effect h fun u hu => .inl ⟨pcMoves_setPc hu, ?_⟩
      obtain ⟨ha, rfl⟩ := setPc_eq_ok hu
      show (BitVec.ofNat 16 _).toNat ≤ addrMax
      rw [ofNat_toNat_of_le ha]; exact ha
    · next k hk =>
      obtain rfl := Host.Outcome.next.inj h
      refine .inr (.inr ⟨k, hk, rfl, fun r hr => reg_setReg_of_ne s _ hr, fun j => ?_⟩)
      rw [keyDown_putKey]
      rfl
  | ldDtVx x => exact .inr (by obtain rfl := Host.Outcome.next.inj h; rfl)
  | ldStVx x => exact .inr (by obtain rfl := Host.Outcome.next.inj h; rfl)
  | ldBVx x => exact deliver_effect h fun u hu => memWriteList_eq_ok hu
  | ldMemVx x =>
    refine deliver_effect h fun u hu => ?_
    have := memWriteList_eq_ok hu
    rw [regsUpTo_length] at this
    exact this

/-- The key query where `V[X]` names a key (R180). -/
theorem keyQuery_ok (x : RegIndex) (s : State) (k : KeyIndex) (h : (s.reg x).toNat = k.val) :
    keyQuery x s = .ok (s.keyDown k) := by
  have hk := k.isLt
  simp only [keyQuery]
  rw [dif_pos (by omega)]
  congr 2
  exact Fin.ext h

/-- The key query where it names none (R180). -/
theorem keyQuery_error (x : RegIndex) (s : State) (h : 15 < (s.reg x).toNat) :
    keyQuery x s = .error (.keyIndexOutOfRange (s.reg x)) := by
  simp only [keyQuery]
  rw [dif_neg (by omega)]

/-- A CALL that is not at capacity and whose slot the state holds (R103). -/
theorem execCall_ok (nnn : Addr12) (s : State) (h1 : s.sp ≠ s.cfg.stackCapacity)
    (h2 : s.sp < s.stack.length) :
    execCall nnn s = .next { s with sp := s.sp + 1, stack := s.stack.set s.sp s.pc,
                                    pc := BitVec.ofNat 16 nnn.toNat } := by
  have hn := nnn.isLt
  simp only [execCall, if_neg h1]
  rw [setSlot_some { s with sp := s.sp + 1 } s.pc (by omega)
    (show s.sp + 1 ≤ s.stack.length by omega)]
  simp only []
  rw [setPc_ok _ (by omega)]
  rfl

/-- A RET from a slot the state holds (R101). -/
theorem execRet_ok (s : State) (w : Word) (h1 : s.sp ≠ 0) (h2 : s.slot s.sp = some w)
    (h3 : w.toNat ≤ 0xFFF) : execRet s = .next { s with sp := s.sp - 1, pc := w } := by
  simp only [execRet, if_neg h1, h2]
  rw [setPc_ok _ h3]
  simp [Except.map, deliver]

end Sys2Proof.Machine
end

