-- ==== Sys2Proof/Laws/Step.lean ====
section
/-! SUPPORT. Said once: what a step can do (spec/30_encoding.md R84 to R90, spec/60_exceptions.md R202,
R203). -/

namespace Sys2Proof.Machine

/-- The word in memory at the program counter (R57). -/
def State.wordAtPc (s : State) : Word :=
  wordOfBytes (s.byteAt s.pc.toNat) (s.byteAt (s.pc.toNat + 1))

/-- The state a handler is entered with (R84): `IR` written, `pc` advanced, program load closed. -/
def State.started (s : State) (w : Word) : State :=
  { s with ir := w, pc := s.pc + 2#16, loadOpen := false }

theorem fetch_ok (s : State) (h : s.pc.toNat ≤ 0xFFE) : fetch s = .ok s.wordAtPc := by
  have h1 : memRead s s.pc.toNat = .ok _ := memRead_ok s (by omega)
  have h2 : memRead s (s.pc.toNat + 1) = .ok _ := memRead_ok s (by omega)
  simp only [fetch, h1, h2]
  rfl

theorem fetch_error (s : State) (h : 0xFFE < s.pc.toNat) :
    fetch s = .error (.outOfRangeAddress (max s.pc.toNat 0x1000)) := by
  by_cases ha : 0xFFF < s.pc.toNat
  · have : max s.pc.toNat 0x1000 = s.pc.toNat := by omega
    simp only [fetch, memRead_error s ha, this]
    rfl
  · have h1 : memRead s s.pc.toNat = .ok _ := memRead_ok s (by omega)
    have : max s.pc.toNat 0x1000 = s.pc.toNat + 1 := by omega
    simp only [fetch, h1, memRead_error s (show 0xFFF < s.pc.toNat + 1 by omega), this]
    rfl

theorem obtainWord_fetched (s : State) (h : s.pc.toNat ≤ 0xFFE) :
    obtainWord none s = .ok s.wordAtPc := fetch_ok s h

theorem obtainWord_fetch_error (s : State) (h : 0xFFE < s.pc.toNat) :
    obtainWord none s = .error (.outOfRangeAddress (max s.pc.toNat 0x1000)) := fetch_error s h

theorem runStep_dispatch {supplied : Option Word} {s : State} {w : Word}
    (hw : obtainWord supplied s = .ok w) (h : s.pc.toNat ≤ 0xFFD) :
    runStep supplied s = dispatchWord s w (s.started w) := by
  simp only [runStep, hw, beginStep_ok s w h]
  rfl

theorem runStep_advance_fault {supplied : Option Word} {s : State} {w : Word}
    (hw : obtainWord supplied s = .ok w) (h : 0xFFD < s.pc.toNat) :
    runStep supplied s =
      .next (takeFault s (some w) (.outOfRangeAddress (s.pc.toNat + 2))) := by
  simp only [runStep, hw, beginStep_error s w h]

theorem runStep_fetch_fault {supplied : Option Word} {s : State} {k : Trap}
    (hw : obtainWord supplied s = .error k) : runStep supplied s = .next (takeFault s none k) := by
  simp only [runStep, hw]

@[simp] theorem stepIfStarted_of_refused {supplied : Option Word} {s : State}
    (h : s.loadRefused = true) : stepIfStarted supplied s = .refused .imageTooLarge := by
  simp [stepIfStarted, h]

@[simp] theorem stepIfStarted_of_not_refused {supplied : Option Word} {s : State}
    (h : s.loadRefused = false) : stepIfStarted supplied s = runStep supplied s := by
  simp [stepIfStarted, h]

/-- A next state of a step the mode allows is one of `runStep`, on a machine that starts. -/
theorem stepIfStarted_eq_next {supplied : Option Word} {s t : State}
    (h : stepIfStarted supplied s = .next t) :
    s.loadRefused = false ∧ runStep supplied s = .next t := by
  cases hl : s.loadRefused with
  | true => rw [stepIfStarted_of_refused hl] at h; exact absurd h (by simp)
  | false => rw [stepIfStarted_of_not_refused hl] at h; exact ⟨rfl, h⟩

theorem stepRequest_of_running {supplied : Option Word} {s : State} (h : s.mode = .running)
    (hl : s.loadRefused = false) : stepRequest supplied s = runStep supplied s := by
  simp only [stepRequest, h, stepIfStarted_of_not_refused hl]

theorem step_of_running {s : State} (h : s.mode = .running) (hl : s.loadRefused = false) :
    step s = runStep none s := stepRequest_of_running h hl

/-- What a step can do: a fault of its own (fetch, advance, unsupported word), or what the decoded
instruction does to the started state, with a taken fault's writes discarded. -/
theorem runStep_cases {supplied : Option Word} {s t : State}
    (h : runStep supplied s = .next t) :
    (∃ k, obtainWord supplied s = .error k ∧ t = takeFault s none k) ∨
    ∃ w, obtainWord supplied s = .ok w ∧
      ((∃ k, t = takeFault s (some w) k) ∨
       ∃ i u, s.pc.toNat ≤ 0xFFD ∧ decode w = .ok i ∧ exec i (s.started w) = .next u ∧
        (u.mode ≠ .halted ∧ t = u ∨
         u.mode = .halted ∧ t = { s with mode := .halted, fault := u.fault })) := by
  cases hw : obtainWord supplied s with
  | error k =>
    rw [runStep_fetch_fault hw] at h
    exact .inl ⟨k, rfl, (Host.Outcome.next.inj h).symm⟩
  | ok w =>
    refine .inr ⟨w, rfl, ?_⟩
    by_cases hp : s.pc.toNat ≤ 0xFFD
    · rw [runStep_dispatch hw hp] at h
      cases hd : decode w with
      | error e =>
        simp only [dispatchWord, hd] at h
        exact .inl ⟨_, (Host.Outcome.next.inj h).symm⟩
      | ok i =>
        simp only [dispatchWord, hd] at h
        obtain ⟨u, hu, hc⟩ := settle_eq_next h
        exact .inr ⟨i, u, hp, rfl, hu, hc⟩
    · rw [runStep_advance_fault hw (by omega)] at h
      exact .inl ⟨_, (Host.Outcome.next.inj h).symm⟩

/-- A next state of Step is one of `runStep`, taken in `Running` on a machine that starts. -/
theorem stepRequest_eq_next {supplied : Option Word} {s t : State}
    (h : stepRequest supplied s = .next t) :
    s.mode = .running ∧ s.loadRefused = false ∧ runStep supplied s = .next t := by
  simp only [stepRequest] at h
  split at h
  · next hm => exact ⟨hm, stepIfStarted_eq_next h⟩
  · exact absurd h (by simp)
  · exact absurd h (by simp)

/-- A next state of SingleStep is one of `runStep`, taken in `Paused` on a machine that starts. -/
theorem singleStepRequest_eq_next {supplied : Option Word} {s t : State}
    (h : singleStepRequest supplied s = .next t) :
    s.mode = .paused ∧ s.loadRefused = false ∧ runStep supplied s = .next t := by
  simp only [singleStepRequest] at h
  split at h
  · exact absurd h (by simp)
  · next hm => exact ⟨hm, stepIfStarted_eq_next h⟩
  · exact absurd h (by simp)

/-- A next state of `step` is one of `runStep`, taken in `Running` on a machine that starts. -/
theorem step_eq_next {s t : State} (h : step s = .next t) :
    s.mode = .running ∧ s.loadRefused = false ∧ runStep none s = .next t :=
  stepRequest_eq_next h

/-- An instruction that takes no fault keeps `Mode`, the fault record and the configuration. -/
theorem effect_keeps_mode {i : Instr} {s t : State} (h : Effect i s t) :
    t.mode = s.mode ∧ t.fault = s.fault ∧ t.cfg = s.cfg := by
  have key : ∀ {u v : State}, u = v → u.mode = v.mode ∧ u.fault = v.fault ∧ u.cfg = v.cfg :=
    fun e => ⟨congrArg State.mode e, congrArg State.fault e, congrArg State.cfg e⟩
  cases i <;> simp only [Effect, PcMoves, RegsWritten, BytesWritten] at h
  case sys => exact (key h :)
  case ldDtVx => exact (key h :)
  case ldStVx => exact (key h :)
  case ret => exact (key h.2.1 :)
  case call => exact (key h.2.1 :)
  case ldVxK =>
    obtain h | ⟨k, _, h, _⟩ := h
    · exact (key h.1.1 :)
    · exact (key h :)
  all_goals exact (key h.1 :)

/-- No instruction opens or closes program load. -/
theorem effect_keeps_loadOpen {i : Instr} {s t : State} (h : Effect i s t) :
    t.loadOpen = s.loadOpen := by
  cases i <;> simp only [Effect, PcMoves, RegsWritten, BytesWritten] at h
  case sys => exact (congrArg State.loadOpen h :)
  case ldDtVx => exact (congrArg State.loadOpen h :)
  case ldStVx => exact (congrArg State.loadOpen h :)
  case ret => exact (congrArg State.loadOpen h.2.1 :)
  case call => exact (congrArg State.loadOpen h.2.1 :)
  case ldVxK =>
    obtain h | ⟨k, _, h, _⟩ := h
    · exact (congrArg State.loadOpen h.1.1 :)
    · exact (congrArg State.loadOpen h :)
  all_goals exact (congrArg State.loadOpen h.1 :)

/-- After a step of any kind program load is closed: by the step, or because it faulted (R216). -/
theorem runStep_closes_load {supplied : Option Word} {s t : State}
    (h : runStep supplied s = .next t) : t.loadOpen = false ∨ t.mode = .halted := by
  obtain ⟨k, _, rfl⟩ | ⟨w, _, ⟨k, rfl⟩ | ⟨i, u, _, _, hu, ⟨_, rfl⟩ | ⟨_, rfl⟩⟩⟩ := runStep_cases h
  · exact .inr rfl
  · exact .inr rfl
  · obtain ⟨k, rfl⟩ | he := exec_effect hu
    · exact .inr rfl
    · exact .inl (effect_keeps_loadOpen he)
  · exact .inr rfl

end Sys2Proof.Machine
end

