-- ==== Sys2Proof/Laws/HostActions.lean ====
section
/-! SUPPORT. The program load (spec/70_reset_and_hazards.md R237) as an update of memory, and what a host
action can do to the parameters. -/

namespace Sys2Proof.Machine

theorem putBytes_frame (bytes : List Byte) : ∀ (s : State) (a : Nat),
    { s.putBytes a bytes with mem := s.mem } = s := by
  induction bytes with
  | nil => intro s a; rfl
  | cons b rest ih =>
    intro s a
    exact congrArg (fun u => { u with mem := s.mem }) (ih (s.putByte a b) (a + 1))

theorem putBytes_cfg (bytes : List Byte) (s : State) (a : Nat) :
    (s.putBytes a bytes).cfg = s.cfg :=
  (congrArg State.cfg (putBytes_frame bytes s a) :)

theorem byteAt_putBytes (bytes : List Byte) : ∀ (s : State) (a c : Nat),
    (s.putBytes a bytes).byteAt c =
      if h : a ≤ c ∧ c - a < bytes.length then bytes[c - a]'h.2 else s.byteAt c := by
  induction bytes with
  | nil => intro s a c; simp [State.putBytes]
  | cons b rest ih =>
    intro s a c
    simp only [State.putBytes]
    rw [ih]
    by_cases h1 : a + 1 ≤ c ∧ c - (a + 1) < rest.length
    · have hc : c - a = (c - (a + 1)) + 1 := by omega
      rw [dif_pos h1, dif_pos (show a ≤ c ∧ c - a < (b :: rest).length by
        simp only [List.length_cons]; omega)]
      simp only [hc, List.getElem_cons_succ]
    · rw [dif_neg h1, byteAt_putByte]
      by_cases hc : c = a
      · subst hc
        simp
      · rw [if_neg hc, dif_neg]
        simp only [List.length_cons]
        omega

theorem wf_putBytes (bytes : List Byte) : ∀ (s : State) (a : Nat), a + bytes.length ≤ 4096 →
    Memory.wf s.cfg.font s.mem = true →
    Memory.wf (s.putBytes a bytes).cfg.font (s.putBytes a bytes).mem = true := by
  induction bytes with
  | nil => intro s a _ h; exact h
  | cons b rest ih =>
    intro s a hlen h
    simp only [List.length_cons] at hlen
    exact ih _ _ (by omega) (wf_putByte b (show a ≤ addrMax by simp only [addrMax]; omega) h)

theorem countDown_toNat (b : Byte) :
    (countDown b).toNat = if b.toNat > 0 then b.toNat - 1 else b.toNat := by
  have := b.isLt
  simp only [countDown]
  split
  · rw [BitVec.toNat_sub]
    simp only [BitVec.toNat_ofNat]
    omega
  · rfl

/-! ### What LoadProgram does (R237) -/

theorem loadProgram_closed (bytes : List Byte) {s : State}
    (h : s.loadOpen = false ∨ s.mode = .halted) :
    loadProgram bytes s = .refused .loadClosed := if_pos h

theorem loadProgram_tooLong {bytes : List Byte} {s : State} (hlen : maxProgram < bytes.length)
    (ho : s.loadOpen = true) (hm : s.mode ≠ .halted) :
    loadProgram bytes s = .next { s with loadOpen := false, loadRefused := true } := by
  simp [loadProgram, ho, hm, hlen]

theorem loadProgram_accepted {bytes : List Byte} {s : State} (hlen : bytes.length ≤ maxProgram)
    (ho : s.loadOpen = true) (hm : s.mode ≠ .halted) :
    loadProgram bytes s = .next { s.putBytes programBase bytes with loadOpen := false } := by
  simp [loadProgram, ho, hm, Nat.not_lt.mpr hlen]

/-- What the host can do to a machine whose program image was refused: no step and no load is accepted, and
no accepted action touches `pc`, the registers or memory (R237). -/
theorem hostAct_of_loadRefused {a : HostAction} {s t : State} (hr : s.loadRefused = true)
    (ho : s.loadOpen = false) (h : hostAct a s = .next t) :
    t.loadRefused = true ∧ t.loadOpen = false ∧ t.pc = s.pc ∧ t.v = s.v ∧ t.mem = s.mem := by
  cases a with
  | loadProgram bytes => simp [hostAct, loadProgram_closed bytes (.inl ho)] at h
  | step w =>
    have hl := (stepRequest_eq_next h).2.1
    rw [hr] at hl
    cases hl
  | singleStep w =>
    have hl := (singleStepRequest_eq_next h).2.1
    rw [hr] at hl
    cases hl
  | pause =>
    simp only [hostAct, pauseRequest] at h
    split at h <;> cases h <;> exact ⟨hr, ho, rfl, rfl, rfl⟩
  | resume =>
    simp only [hostAct, resumeRequest] at h
    split at h <;> cases h <;> exact ⟨hr, ho, rfl, rfl, rfl⟩
  | decrementDelay | decrementSound | readDisplay | clearRedraw | setKey k p | introspect =>
    cases h
    exact ⟨hr, ho, rfl, rfl, rfl⟩

end Sys2Proof.Machine
end

