-- ==== Sys2Proof/Laws/PerInstr.lean ====
section
/-! SUPPORT. One statement per instruction: the word of an instruction agrees with its row of
spec/opcode_table.json (spec/30_encoding.md R82). -/

namespace Sys2Proof.Laws

namespace TableWord

/-- The fixed bits of a row of spec/opcode_table.json: its `mask` and its `match`. -/
structure FixedBits where
  mask : Word
  value : Word
  deriving DecidableEq, Repr

/-- The row of each instruction, `mask` then `match`, copied from spec/opcode_table.json. -/
def fixedBits (i : Instr) : FixedBits :=
  match i with
  | .sys _ => ⟨0xF000#16, 0x0000#16⟩
  | .cls => ⟨0xFFFF#16, 0x00E0#16⟩
  | .ret => ⟨0xFFFF#16, 0x00EE#16⟩
  | .jp _ => ⟨0xF000#16, 0x1000#16⟩
  | .call _ => ⟨0xF000#16, 0x2000#16⟩
  | .seImm _ _ => ⟨0xF000#16, 0x3000#16⟩
  | .sneImm _ _ => ⟨0xF000#16, 0x4000#16⟩
  | .seReg _ _ => ⟨0xF00F#16, 0x5000#16⟩
  | .ldImm _ _ => ⟨0xF000#16, 0x6000#16⟩
  | .addImm _ _ => ⟨0xF000#16, 0x7000#16⟩
  | .ldReg _ _ => ⟨0xF00F#16, 0x8000#16⟩
  | .orReg _ _ => ⟨0xF00F#16, 0x8001#16⟩
  | .andReg _ _ => ⟨0xF00F#16, 0x8002#16⟩
  | .xorReg _ _ => ⟨0xF00F#16, 0x8003#16⟩
  | .addReg _ _ => ⟨0xF00F#16, 0x8004#16⟩
  | .subReg _ _ => ⟨0xF00F#16, 0x8005#16⟩
  | .shrReg _ _ => ⟨0xF00F#16, 0x8006#16⟩
  | .subnReg _ _ => ⟨0xF00F#16, 0x8007#16⟩
  | .shlReg _ _ => ⟨0xF00F#16, 0x800E#16⟩
  | .sneReg _ _ => ⟨0xF00F#16, 0x9000#16⟩
  | .ldI _ => ⟨0xF000#16, 0xA000#16⟩
  | .jpV0 _ => ⟨0xF000#16, 0xB000#16⟩
  | .rnd _ _ => ⟨0xF000#16, 0xC000#16⟩
  | .drw _ _ _ => ⟨0xF000#16, 0xD000#16⟩
  | .skp _ => ⟨0xF0FF#16, 0xE09E#16⟩
  | .sknp _ => ⟨0xF0FF#16, 0xE0A1#16⟩
  | .ldVxDt _ => ⟨0xF0FF#16, 0xF007#16⟩
  | .ldVxK _ => ⟨0xF0FF#16, 0xF00A#16⟩
  | .ldDtVx _ => ⟨0xF0FF#16, 0xF015#16⟩
  | .ldStVx _ => ⟨0xF0FF#16, 0xF018#16⟩
  | .addIVx _ => ⟨0xF0FF#16, 0xF01E#16⟩
  | .ldFVx _ => ⟨0xF0FF#16, 0xF029#16⟩
  | .ldBVx _ => ⟨0xF0FF#16, 0xF033#16⟩
  | .ldMemVx _ => ⟨0xF0FF#16, 0xF055#16⟩
  | .ldVxMem _ => ⟨0xF0FF#16, 0xF065#16⟩

/-- The word of `i` has the fixed bits of its row. -/
def Statement (i : Instr) : Prop := encode i &&& (fixedBits i).mask = (fixedBits i).value

theorem wordNNN_mask (c : BitVec 4) (nnn : Addr12) :
    wordNNN c nnn &&& 0xF000#16 = c ++ 0#12 := by
  rw [show (0xF000#16 : Word) = 0xF#4 ++ 0x000#12 from rfl, wordNNN, BitVec.and_append]
  congr 1
  · exact BitVec.and_allOnes
  · exact BitVec.and_zero

theorem wordXNN_mask (c : BitVec 4) (x : RegIndex) (nn : Byte) :
    wordXNN c x nn &&& 0xF0FF#16 = c ++ (0x0#4 ++ nn : BitVec 12) := by
  rw [show (0xF0FF#16 : Word) = 0xF#4 ++ (0x0#4 ++ 0xFF#8 : BitVec 12) from rfl, wordXNN,
    BitVec.and_append, BitVec.and_append]
  congr 1
  · exact BitVec.and_allOnes
  · congr 1
    · exact BitVec.and_zero
    · exact BitVec.and_allOnes

theorem wordXYN_mask (c : BitVec 4) (x y : RegIndex) (n : BitVec 4) :
    wordXYN c x y n &&& 0xF00F#16 = c ++ (0x0#4 ++ (0x0#4 ++ n : BitVec 8) : BitVec 12) := by
  rw [show (0xF00F#16 : Word) = 0xF#4 ++ (0x0#4 ++ (0x0#4 ++ 0xF#4 : BitVec 8) : BitVec 12) from rfl,
    wordXYN, BitVec.and_append, BitVec.and_append, BitVec.and_append]
  congr 1
  · exact BitVec.and_allOnes
  · congr 1
    · exact BitVec.and_zero
    · congr 1
      · exact BitVec.and_zero
      · exact BitVec.and_allOnes

theorem sys (nnn : Addr12) : Statement (.sys nnn) := wordNNN_mask _ nnn

theorem cls : Statement .cls := rfl

theorem ret : Statement .ret := rfl

theorem jp (nnn : Addr12) : Statement (.jp nnn) := wordNNN_mask _ nnn

theorem call (nnn : Addr12) : Statement (.call nnn) := wordNNN_mask _ nnn

theorem seImm (x : RegIndex) (nn : Byte) : Statement (.seImm x nn) := wordNNN_mask _ _

theorem sneImm (x : RegIndex) (nn : Byte) : Statement (.sneImm x nn) := wordNNN_mask _ _

theorem seReg (x y : RegIndex) : Statement (.seReg x y) := wordXYN_mask _ x y _

theorem ldImm (x : RegIndex) (nn : Byte) : Statement (.ldImm x nn) := wordNNN_mask _ _

theorem addImm (x : RegIndex) (nn : Byte) : Statement (.addImm x nn) := wordNNN_mask _ _

theorem ldReg (x y : RegIndex) : Statement (.ldReg x y) := wordXYN_mask _ x y _

theorem orReg (x y : RegIndex) : Statement (.orReg x y) := wordXYN_mask _ x y _

theorem andReg (x y : RegIndex) : Statement (.andReg x y) := wordXYN_mask _ x y _

theorem xorReg (x y : RegIndex) : Statement (.xorReg x y) := wordXYN_mask _ x y _

theorem addReg (x y : RegIndex) : Statement (.addReg x y) := wordXYN_mask _ x y _

theorem subReg (x y : RegIndex) : Statement (.subReg x y) := wordXYN_mask _ x y _

theorem shrReg (x y : RegIndex) : Statement (.shrReg x y) := wordXYN_mask _ x y _

theorem subnReg (x y : RegIndex) : Statement (.subnReg x y) := wordXYN_mask _ x y _

theorem shlReg (x y : RegIndex) : Statement (.shlReg x y) := wordXYN_mask _ x y _

theorem sneReg (x y : RegIndex) : Statement (.sneReg x y) := wordXYN_mask _ x y _

theorem ldI (nnn : Addr12) : Statement (.ldI nnn) := wordNNN_mask _ nnn

theorem jpV0 (nnn : Addr12) : Statement (.jpV0 nnn) := wordNNN_mask _ nnn

theorem rnd (x : RegIndex) (nn : Byte) : Statement (.rnd x nn) := wordNNN_mask _ _

theorem drw (x y : RegIndex) (n : RowCount) : Statement (.drw x y n) := wordNNN_mask _ _

theorem skp (x : RegIndex) : Statement (.skp x) := wordXNN_mask _ x _

theorem sknp (x : RegIndex) : Statement (.sknp x) := wordXNN_mask _ x _

theorem ldVxDt (x : RegIndex) : Statement (.ldVxDt x) := wordXNN_mask _ x _

theorem ldVxK (x : RegIndex) : Statement (.ldVxK x) := wordXNN_mask _ x _

theorem ldDtVx (x : RegIndex) : Statement (.ldDtVx x) := wordXNN_mask _ x _

theorem ldStVx (x : RegIndex) : Statement (.ldStVx x) := wordXNN_mask _ x _

theorem addIVx (x : RegIndex) : Statement (.addIVx x) := wordXNN_mask _ x _

theorem ldFVx (x : RegIndex) : Statement (.ldFVx x) := wordXNN_mask _ x _

theorem ldBVx (x : RegIndex) : Statement (.ldBVx x) := wordXNN_mask _ x _

theorem ldMemVx (x : RegIndex) : Statement (.ldMemVx x) := wordXNN_mask _ x _

theorem ldVxMem (x : RegIndex) : Statement (.ldVxMem x) := wordXNN_mask _ x _

end TableWord

end Sys2Proof.Laws
end

