-- ==== Sys2Proof/Tests/Slice0.lean ====
section
/-! SUPPORT. Tests.  Expected results come from spec/95_test_vectors.md (the vector's id stands in the comment)
or from the rule named; witnesses show that the hypotheses of the statements in
Sys2Proof/Certificates/Slice0/Obligations.lean can be met, at the ends of their ranges. -/

namespace Sys2Proof.Tests

open Sys2Proof.Machine

/-! ### Well-formedness: each check refuses an ill-formed term -/

theorem test_wellFormed_refuses_sys_of_cls : (Instr.sys 0x0E0#12).wellFormed = false := by decide

theorem test_wellFormed_refuses_sys_of_ret : (Instr.sys 0x0EE#12).wellFormed = false := by decide

theorem test_wellFormed_accepts_sys : (Instr.sys 0x0E1#12).wellFormed = true := by decide

theorem test_config_refuses_short_stack :
    { defaultConfig with stackCapacity := 15 }.wellFormed = false := by decide

theorem test_memory_refuses_background_entry : Memory.wf defaultFont [(0x000, 0xF0#8)] = false := by
  decide

theorem test_memory_refuses_falling_addresses :
    Memory.wf defaultFont [(0x301, 1#8), (0x300, 1#8)] = false := by decide

theorem test_memory_refuses_address_1000 : Memory.wf defaultFont [(0x1000, 1#8)] = false := by decide

/-! ### Decoding: a word of every constructor, written from the layout of R82 -/

/-- DEC1, DEC2, DEC3, DEC4, DEC5, CF2, CF5. -/
theorem test_decode_class_0_1_2 :
    decode 0b0000000000000000#16 = .ok (.sys 0x000#12) ∧
    decode 0b0000000011100000#16 = .ok .cls ∧ decode 0b0000000011101110#16 = .ok .ret ∧
    decode 0b0000000011100001#16 = .ok (.sys 0x0E1#12) ∧
    decode 0b0000111111111111#16 = .ok (.sys 0xFFF#12) ∧
    decode 0b0001001000110100#16 = .ok (.jp 0x234#12) ∧
    decode 0b0010010000000000#16 = .ok (.call 0x400#12) := by decide

/-- CF10, CF12, DEC6, E8, DEC8. -/
theorem test_decode_class_3_to_7_and_9 :
    decode 0b0011001100010101#16 = .ok (.seImm 3 0x15#8) ∧
    decode 0b0100001100010101#16 = .ok (.sneImm 3 0x15#8) ∧
    decode 0b0101000100100000#16 = .ok (.seReg 1 2) ∧
    decode 0b0110001100000101#16 = .ok (.ldImm 3 0x05#8) ∧
    decode 0b0111001100010000#16 = .ok (.addImm 3 0x10#8) ∧
    decode 0b1001101010110000#16 = .ok (.sneReg 10 11) := by decide

/-- The sub-operations of R77, X = 1 and Y = 2. -/
theorem test_decode_class_8 :
    decode 0b1000000100100000#16 = .ok (.ldReg 1 2) ∧
    decode 0b1000000100100001#16 = .ok (.orReg 1 2) ∧
    decode 0b1000000100100010#16 = .ok (.andReg 1 2) ∧
    decode 0b1000000100100011#16 = .ok (.xorReg 1 2) ∧
    decode 0b1000000100100100#16 = .ok (.addReg 1 2) ∧
    decode 0b1000000100100101#16 = .ok (.subReg 1 2) ∧
    decode 0b1000000100100110#16 = .ok (.shrReg 1 2) ∧
    decode 0b1000000100100111#16 = .ok (.subnReg 1 2) ∧
    decode 0b1000000100101110#16 = .ok (.shlReg 1 2) := by decide

/-- RI6, DEC14, RI8, P3, DEC11. -/
theorem test_decode_class_A_to_E :
    decode 0b1010000100100011#16 = .ok (.ldI 0x123#12) ∧
    decode 0b1011000100100011#16 = .ok (.jpV0 0x123#12) ∧
    decode 0b1100010100001111#16 = .ok (.rnd 5 0x0F#8) ∧
    decode 0b1101101010110101#16 = .ok (.drw 10 11 5) ∧
    decode 0b1110000110011110#16 = .ok (.skp 1) ∧
    decode 0b1110000110100001#16 = .ok (.sknp 1) := by decide

/-- DEC12. -/
theorem test_decode_class_F :
    decode 0b1111000100000111#16 = .ok (.ldVxDt 1) ∧
    decode 0b1111000100001010#16 = .ok (.ldVxK 1) ∧
    decode 0b1111000100010101#16 = .ok (.ldDtVx 1) ∧
    decode 0b1111000100011000#16 = .ok (.ldStVx 1) ∧
    decode 0b1111000100011110#16 = .ok (.addIVx 1) ∧
    decode 0b1111000100101001#16 = .ok (.ldFVx 1) ∧
    decode 0b1111000100110011#16 = .ok (.ldBVx 1) ∧
    decode 0b1111000101010101#16 = .ok (.ldMemVx 1) ∧
    decode 0b1111000101100101#16 = .ok (.ldVxMem 1) := by decide

/-- DEC7, DEC9, DEC10, DEC11, DEC13. -/
theorem test_decode_unsupported :
    ([0x512F#16, 0x9AB1#16, 0x8128#16, 0x8129#16, 0x812A#16, 0x812B#16, 0x812C#16, 0x812D#16,
      0x812F#16, 0xE19F#16, 0xE100#16, 0xF100#16, 0xF1FF#16, 0xF108#16, 0xF175#16].all
      fun w => decode w == .error (.unsupported w)) = true := by decide

/-- R57: the high byte comes first. -/
theorem test_decode_bytes :
    decodeBytes [0x63#8, 0x05#8, 0xFF#8] = .ok (.ldImm 3 0x05#8, [0xFF#8]) ∧
    decodeBytes [0x63#8] = .error .truncated ∧
    decodeTableWord 16 0x6305 = some (.ldImm 3 0x05#8) ∧ decodeTableWord 16 0x5121 = none := by
  decide

/-- R82 with P3's and P6's words. -/
theorem test_encode :
    encode (.drw 10 11 5) = 0xDAB5#16 ∧ encode (.shlReg 1 2) = 0x812E#16 ∧
    encode (.ldVxMem 2) = 0xF265#16 ∧ encode (.sys 0x123#12) = 0x0123#16 ∧
    encodeBytes (.jp 0x204#12) = [0x12#8, 0x04#8] := by decide

/-! ### One step -/

/-- The state after Step(w), if there is one. -/
def after (w : Word) (s : State) : Option State :=
  match stepRequest (some w) s with
  | .next t => some t
  | .fault _ | .refused _ => none

/-- The state after a step that fetches, if there is one. -/
def afterFetch (s : State) : Option State :=
  match step s with
  | .next t => some t
  | .fault _ | .refused _ => none

/-- The reset state with `pc` set. -/
def atPc (pc : Word) : State := { State.reset with pc := pc }

/-- The reset state with V1 and V2 set. -/
def v12 (a b : Byte) : State := (State.reset.setReg 1 a).setReg 2 b

/-- The set cells of one row. -/
def litInRow (t : State) (y : Fin 32) : List Nat :=
  ((List.finRange 64).filter fun x => t.disp.cell x y).map Fin.val

/-- The fault record after Step(w). -/
def faultOf (w : Word) (s : State) : Option FaultRecord := (after w s).bind State.fault

/-- S1, S2. -/
theorem test_step_fetches_big_endian :
    ((afterFetch (State.reset.withFetchWord 16 0x6305)).map fun t => (t.reg 3, t.pc, t.ir)) =
      some (5#8, 0x202#16, 0x6305#16) ∧
    ((afterFetch ((atPc 0x201#16).withFetchWord 16 0x612A)).map fun t => (t.reg 1, t.pc)) =
      some (0x2A#8, 0x203#16) := by decide

/-- S4, S5, S6. -/
theorem test_step_at_top :
    ((afterFetch ((atPc 0xFFC#16).withFetchWord 16 0x6101)).map State.pc) = some 0xFFE#16 ∧
    ((afterFetch ((atPc 0xFFE#16).withFetchWord 16 0x6101)).bind State.fault) =
      some { kind := .outOfRangeAddress 0x1000, word := some 0x6101#16, startPc := 0xFFE#16 } ∧
    ((afterFetch (atPc 0xFFF#16)).bind State.fault) =
      some { kind := .outOfRangeAddress 0x1000, word := none, startPc := 0xFFF#16 } := by decide

/-- S3, S7. -/
theorem test_supplied_word :
    ((after 0x6A07#16 (atPc 0x300#16)).map fun t => (t.reg 10, t.pc)) = some (7#8, 0x302#16) ∧
    faultOf 0x6001#16 (atPc 0xFFE#16) =
      some { kind := .outOfRangeAddress 0x1000, word := some 0x6001#16, startPc := 0xFFE#16 } := by
  decide

/-- S8, AL29, F27, K8. -/
theorem test_unsupported_faults :
    ([0x5121#16, 0x8128#16, 0xF1FF#16, 0xE49F#16].all fun w =>
      faultOf w State.reset ==
        some { kind := .unsupportedInstruction, word := some w, startPc := 0x200#16 }) = true := by
  decide

/-- S9, S10, H4, H5. -/
theorem test_modes :
    hostAct (.singleStep (some 0x6005#16)) { State.reset with mode := .paused } =
      .next { State.reset.setReg 0 5#8 with
        mode := .paused, pc := 0x202#16, ir := 0x6005#16, loadOpen := false } ∧
    step { State.reset with mode := .halted } = .refused .halted ∧
    hostAct .pause State.reset = .next { State.reset with mode := .paused } ∧
    step { State.reset with mode := .paused } = .refused .paused ∧
    hostAct .resume { State.reset with mode := .paused } = .next State.reset :=
  ⟨rfl, rfl, rfl, rfl, rfl⟩

/-- CF1, E12. -/
theorem test_sys : after 0x0123#16 State.reset =
    some { State.reset with pc := 0x202#16, ir := 0x0123#16, loadOpen := false } := by decide

/-- CF2, CF3, CF4. -/
theorem test_jp :
    ((after 0x1234#16 State.reset).map State.pc) = some 0x234#16 ∧
    ((after 0x1301#16 State.reset).map State.pc) = some 0x301#16 ∧
    ((after 0x120C#16 (atPc 0x20C#16)).map State.pc) = some 0x20C#16 := by decide

/-- The reset state at 0x300 with `SP = n`. -/
def depth (n : Nat) : State := { atPc 0x300#16 with sp := n }

/-- CF5, CF6. -/
theorem test_call :
    ((after 0x2400#16 State.reset).map fun t => (t.sp, t.slot 1, t.pc)) =
      some (1, some 0x202#16, 0x400#16) ∧
    ((after 0x2500#16 (depth 15)).map fun t => (t.sp, t.slot 16, t.pc)) =
      some (16, some 0x302#16, 0x500#16) := by decide

/-- CF7, CF9. -/
theorem test_stack_faults :
    faultOf 0x2500#16 (depth 16) =
      some { kind := .stackOverflow, word := some 0x2500#16, startPc := 0x300#16 } ∧
    faultOf 0x00EE#16 State.reset =
      some { kind := .stackUnderflow, word := some 0x00EE#16, startPc := 0x200#16 } := by decide

/-- CF8. -/
theorem test_ret :
    ((after 0x00EE#16
      { depth 2 with stack := [0x202#16, 0x40A#16] ++ List.replicate 14 0#16 }).map
        fun t => (t.pc, t.sp, t.slot 2)) = some (0x40A#16, 1, some 0x40A#16) := by decide

/-- CF10, CF11, CF12, CF13. -/
theorem test_skip_immediate :
    ((after 0x3315#16 ((atPc 0x204#16).setReg 3 0x15#8)).map State.pc) = some 0x208#16 ∧
    ((after 0x3315#16 ((atPc 0x204#16).setReg 3 0x14#8)).map State.pc) = some 0x206#16 ∧
    ((after 0x4315#16 ((atPc 0x204#16).setReg 3 0x14#8)).map State.pc) = some 0x208#16 ∧
    ((after 0x4315#16 ((atPc 0x204#16).setReg 3 0x15#8)).map State.pc) = some 0x206#16 := by decide

/-- CF14, CF15, CF16, CF17. -/
theorem test_skip_register :
    ((after 0x5550#16 (State.reset.setReg 5 9#8)).map State.pc) = some 0x204#16 ∧
    ((after 0x5120#16 (v12 7#8 8#8)).map State.pc) = some 0x202#16 ∧
    ((after 0x9120#16 (v12 7#8 7#8)).map State.pc) = some 0x202#16 ∧
    ((after 0x9120#16 (v12 7#8 8#8)).map State.pc) = some 0x204#16 := by decide

/-- CF22, CF23. -/
theorem test_skip_past_top :
    faultOf 0x3000#16 (atPc 0xFFC#16) =
      some { kind := .outOfRangeAddress 0x1000, word := some 0x3000#16, startPc := 0xFFC#16 } ∧
    ((after 0x3000#16 ((atPc 0xFFC#16).setReg 0 1#8)).map State.pc) = some 0xFFE#16 := by decide

/-- CF19, CF20, CF21. -/
theorem test_jpV0 :
    ((after 0xB300#16 (State.reset.setReg 0 4#8)).map fun t => (t.pc, t.regI)) =
      some (0x304#16, 0#16) ∧
    ((after 0xBF00#16 (State.reset.setReg 0 0xFF#8)).map State.pc) = some 0xFFF#16 ∧
    faultOf 0xBFF8#16 (State.reset.setReg 0 0x10#8) =
      some { kind := .outOfRangeAddress 0x1008, word := some 0xBFF8#16, startPc := 0x200#16 } := by
  decide

/-- RI1, RI3, RI4. -/
theorem test_immediate :
    ((after 0x6A42#16 State.reset).map fun t => t.reg 10) = some 0x42#8 ∧
    ((after 0x7AFF#16 ((State.reset.setReg 10 2#8).setReg 15 0x77#8)).map
      fun t => (t.reg 10, t.reg 15)) = some (1#8, 0x77#8) ∧
    ((after 0x7F01#16 (State.reset.setReg 15 0xFF#8)).map fun t => t.reg 15) = some 0#8 := by decide

/-- RI6, RI7. -/
theorem test_ldI :
    ((after 0xA123#16 { State.reset with regI := 0x1234#16 }).map State.regI) = some 0x123#16 ∧
    ((after 0xAFFF#16 State.reset).map State.regI) = some 0xFFF#16 := by decide

/-- RI9: under the mask 00 every draw gives 0. -/
theorem test_rnd : ((after 0xC500#16 (State.reset.setReg 5 9#8)).map fun t => (t.reg 5, t.draws)) =
    some (0#8, 1) := by
  have h : Config.freeByte 0 &&& 0#8 = 0#8 := BitVec.and_zero
  show some (((State.reset.setReg 5 9#8).setReg 5 (Config.freeByte 0 &&& 0#8)).reg 5, 1) = _
  rw [h]
  decide

/-- AL1, AL2, AL4, AL5, AL3. -/
theorem test_logic :
    ((after 0x8120#16 ((v12 0#8 0x3C#8).setReg 15 5#8)).map fun t => (t.reg 1, t.reg 15)) =
      some (0x3C#8, 5#8) ∧
    ((after 0x8121#16 (v12 0x0F#8 0x30#8)).map fun t => t.reg 1) = some 0x3F#8 ∧
    ((after 0x8122#16 (v12 0x3C#8 0x0F#8)).map fun t => t.reg 1) = some 0x0C#8 ∧
    ((after 0x8123#16 (v12 0x3C#8 0x0F#8)).map fun t => t.reg 1) = some 0x33#8 ∧
    ((after 0x8F01#16 ((State.reset.setReg 15 0x10#8).setReg 0 1#8)).map fun t => t.reg 15) =
      some 0x11#8 := by decide

/-- E1, AL8, AL9, AL10. -/
theorem test_add :
    ((after 0x8124#16 (v12 0xFF#8 0x01#8)).map fun t => (t.reg 1, t.reg 15)) = some (0#8, 1#8) ∧
    ((after 0x81F4#16 ((v12 0x10#8 0#8).setReg 15 0xF5#8)).map fun t => (t.reg 1, t.reg 15)) =
      some (0x05#8, 1#8) ∧
    ((after 0x8F14#16 ((v12 1#8 0#8).setReg 15 0xFF#8)).map fun t => t.reg 15) = some 1#8 ∧
    ((after 0x8F14#16 ((v12 1#8 0#8).setReg 15 0x01#8)).map fun t => t.reg 15) = some 0#8 := by
  decide

/-- E2, AL12, AL14. -/
theorem test_sub :
    ((after 0x8125#16 (v12 5#8 3#8)).map fun t => (t.reg 1, t.reg 15)) = some (2#8, 1#8) ∧
    ((after 0x8125#16 (v12 0#8 1#8)).map fun t => (t.reg 1, t.reg 15)) = some (0xFF#8, 0#8) ∧
    ((after 0x8125#16 (v12 5#8 5#8)).map fun t => (t.reg 1, t.reg 15)) = some (0#8, 1#8) ∧
    ((after 0x8F15#16 ((v12 1#8 0#8).setReg 15 0x10#8)).map fun t => t.reg 15) = some 1#8 := by
  decide

/-- AL22, AL23. -/
theorem test_subn :
    ((after 0x8127#16 (v12 3#8 5#8)).map fun t => (t.reg 1, t.reg 15)) = some (2#8, 1#8) ∧
    ((after 0x8127#16 (v12 5#8 3#8)).map fun t => (t.reg 1, t.reg 15)) = some (0xFE#8, 0#8) := by
  decide

/-- The dialect `SHIFT_SOURCE = VY`. -/
def dialectVy (s : State) : State := { s with cfg := { s.cfg with shiftSource := .vy } }

/-- AL20, AL21, AL19. -/
theorem test_shr :
    ((after 0x8126#16 (dialectVy (v12 0xAA#8 5#8))).map fun t => (t.reg 1, t.reg 15)) =
      some (2#8, 1#8) ∧
    ((after 0x8126#16 (v12 0xAA#8 5#8)).map fun t => (t.reg 1, t.reg 15)) = some (0x55#8, 0#8) ∧
    ((after 0x8F06#16 (State.reset.setReg 15 2#8)).map fun t => t.reg 15) = some 0#8 := by decide

/-- E3, AL28, AL27. -/
theorem test_shl :
    ((after 0x810E#16 (v12 0x81#8 0#8)).map fun t => (t.reg 1, t.reg 15)) = some (2#8, 1#8) ∧
    ((after 0x812E#16 (dialectVy (v12 0#8 0xC0#8))).map fun t => (t.reg 1, t.reg 15)) =
      some (0x80#8, 1#8) ∧
    ((after 0x8F0E#16 (State.reset.setReg 15 0x80#8)).map fun t => t.reg 15) = some 1#8 := by decide

/-- The reset state with `I`, V0 and V1 set and two bytes at 0x300. -/
def sprite (i : Word) (x y : Byte) (b0 b1 : Byte) : State :=
  ((({ State.reset with regI := i }.setReg 0 x).setReg 1 y).putByte 0x300 b0).putByte 0x301 b1

/-- E4: the rows 0xA5 and 0x3C. -/
theorem test_drw_pattern :
    ((after 0xD012#16 (sprite 0x300#16 0#8 0#8 0xA5#8 0x3C#8)).map
      fun t => (litInRow t 0, litInRow t 1, t.reg 15, t.redraw)) =
      some ([0, 2, 5, 7], [2, 3, 4, 5], 0#8, true) := by decide

/-- E6, DR5: wrapping in both directions. -/
theorem test_drw_wraps :
    ((after 0xD011#16 (sprite 0x300#16 60#8 0#8 0xFF#8 0#8)).map fun t => (litInRow t 0, t.reg 15)) =
      some ([0, 1, 2, 3, 60, 61, 62, 63], 0#8) ∧
    ((after 0xD012#16 (sprite 0x300#16 0#8 31#8 0x80#8 0x80#8)).map
      fun t => (litInRow t 31, litInRow t 0)) = some ([0], [0]) := by decide

/-- DR10: a partial collision. -/
theorem test_drw_collision :
    ((after 0xD011#16 { sprite 0x300#16 0#8 0#8 0xC0#8 0#8 with
        disp := Display.clear.setCell 0 0 true }).map fun t => (litInRow t 0, t.reg 15)) =
      some ([1], 1#8) := by decide

/-- DR7, DR8. -/
theorem test_drw_memory_bounds :
    ((after 0xD010#16 { State.reset.setReg 15 1#8 with regI := 0xFFFF#16 }).map
      fun t => (t.mode, t.reg 15, t.redraw)) = some (.running, 0#8, true) ∧
    faultOf 0xD013#16 { State.reset with regI := 0xFFE#16 } =
      some { kind := .outOfRangeAddress 0x1000, word := some 0xD013#16, startPc := 0x200#16 } := by
  decide

/-- DR1. -/
theorem test_cls :
    ((after 0x00E0#16 { State.reset.setReg 15 7#8 with
        disp := Display.clear.setCell 63 31 true }).map
      fun t => (litInRow t 31, t.redraw, t.reg 15)) = some ([], true, 7#8) := by decide

/-- F2, F7, F9. -/
theorem test_timers :
    ((after 0xFF07#16 { State.reset with dt := 0xFF#8 }).map fun t => t.reg 15) = some 0xFF#8 ∧
    ((after 0xF515#16 (State.reset.setReg 5 0x3C#8)).map fun t => (t.dt, t.st)) =
      some (0x3C#8, 0#8) ∧
    ((after 0xF518#16 (State.reset.setReg 5 4#8)).map fun t => (t.st, t.dt)) = some (4#8, 0#8) := by
  decide

/-- F3, F4. -/
theorem test_key_wait :
    after 0xF30A#16 (atPc 0x220#16) =
      some { atPc 0x220#16 with ir := 0xF30A#16, loadOpen := false } ∧
    ((after 0xF30A#16 (((atPc 0x220#16).putKey 3 true).putKey 15 true)).map
      fun t => (t.reg 3, t.keyDown 3, t.keyDown 15, t.pc)) =
      some (3#8, false, true, 0x222#16) := by decide

/-- F10, F11, F12: the three moduli. -/
theorem test_addIVx :
    ((after 0xF11E#16 { (v12 1#8 0#8).setReg 15 0x33#8 with regI := 0xFFF#16 }).map
      fun t => (t.regI, t.reg 15)) = some (0x1000#16, 0x33#8) ∧
    ((after 0xF11E#16 { v12 1#8 0#8 with
        regI := 0x7FFF#16, cfg := { defaultConfig with iaddModulus := .m32768 } }).map State.regI) =
      some 0#16 ∧
    ((after 0xF11E#16 { v12 1#8 0#8 with
        regI := 0xFFF#16, cfg := { defaultConfig with iaddModulus := .m4096 } }).map State.regI) =
      some 0#16 ∧
    ((after 0xF11E#16 { v12 2#8 0#8 with regI := 0xFFFF#16 }).map State.regI) = some 1#16 := by
  decide

/-- F14, F16. -/
theorem test_ldFVx :
    ((after 0xF129#16 (v12 0x0F#8 0#8)).map State.regI) = some 0x04B#16 ∧
    ((after 0xF129#16 (v12 0xFF#8 0#8)).map State.regI) = some 0x4FB#16 := by decide

/-- F18, F21. -/
theorem test_ldBVx :
    ((after 0xF133#16 { v12 255#8 0#8 with regI := 0x300#16 }).map
      fun t => [t.byteAt 0x300, t.byteAt 0x301, t.byteAt 0x302]) = some [2#8, 5#8, 5#8] ∧
    ((after 0xF133#16 { v12 255#8 0#8 with regI := 0xFFE#16 }).map fun t => (t.fault, t.mem)) =
      some (some { kind := .outOfRangeAddress 0x1000, word := some 0xF133#16, startPc := 0x200#16 },
        []) := by decide

/-- F24, F23, M1. -/
theorem test_ldMemVx :
    ((after 0xF155#16 { (v12 0xCD#8 0#8).setReg 0 0xAB#8 with regI := 0x400#16 }).map
      fun t => (t.mem, t.regI)) = some ([(0x400, 0xAB#8), (0x401, 0xCD#8)], 0x400#16) ∧
    ((after 0xFF55#16 { v12 1#8 0#8 with regI := 0xFF1#16 }).map fun t => (t.fault, t.mem)) =
      some (some { kind := .outOfRangeAddress 0x1000, word := some 0xFF55#16, startPc := 0x200#16 },
        []) ∧
    ((after 0xF055#16 (State.reset.setReg 0 0x12#8)).map fun t => t.byteAt 0) = some 0x12#8 := by
  decide

/-- F25, F13. -/
theorem test_ldVxMem :
    ((after 0xF265#16 (({ State.reset.setReg 3 0x99#8 with regI := 0x300#16 }.putByte 0x300 2#8).putByte
        0x302 4#8)).map fun t => ([t.reg 0, t.reg 1, t.reg 2, t.reg 3], t.regI)) =
      some ([2#8, 0#8, 4#8, 0x99#8], 0x300#16) ∧
    faultOf 0xF065#16 { atPc 0x300#16 with regI := 0x1000#16 } =
      some { kind := .outOfRangeAddress 0x1000, word := some 0xF065#16, startPc := 0x300#16 } := by
  decide

/-- K1, K2, K5. -/
theorem test_skp :
    ((after 0xE49E#16 ((State.reset.setReg 4 5#8).putKey 5 true)).map
      fun t => (t.pc, t.keyDown 5)) = some (0x204#16, true) ∧
    ((after 0xE49E#16 (State.reset.setReg 4 5#8)).map State.pc) = some 0x202#16 ∧
    faultOf 0xE49E#16 (State.reset.setReg 4 0x10#8) =
      some { kind := .keyIndexOutOfRange 0x10#8, word := some 0xE49E#16, startPc := 0x200#16 } := by
  decide

/-- K3, K4, K6. -/
theorem test_sknp :
    ((after 0xE4A1#16 (State.reset.setReg 4 5#8)).map State.pc) = some 0x204#16 ∧
    ((after 0xE4A1#16 ((State.reset.setReg 4 5#8).putKey 5 true)).map State.pc) = some 0x202#16 ∧
    faultOf 0xE4A1#16 (State.reset.setReg 4 0xFF#8) =
      some { kind := .keyIndexOutOfRange 0xFF#8, word := some 0xE4A1#16, startPc := 0x200#16 } := by
  decide

/-- K7. -/
theorem test_skp_past_top :
    faultOf 0xE49E#16 ((atPc 0xFFC#16).putKey 0 true) =
      some { kind := .outOfRangeAddress 0x1000, word := some 0xE49E#16, startPc := 0xFFC#16 } := by
  decide

/-- H1: the font at 0x000, and the last font byte (R34). -/
theorem test_reset_font :
    [State.reset.byteAt 0, State.reset.byteAt 1, State.reset.byteAt 2, State.reset.byteAt 3,
      State.reset.byteAt 4] = [0xF0#8, 0x90#8, 0x90#8, 0x90#8, 0xF0#8] ∧
    State.reset.byteAt 79 = 0x80#8 ∧ State.reset.byteAt 80 = 0#8 := by decide

/-- E13, H6, H8. -/
theorem test_host_actions :
    hostAct .decrementDelay { State.reset with dt := 1#8 } = .next State.reset ∧
    hostAct .decrementSound State.reset = .next State.reset ∧
    hostAct .clearRedraw { State.reset with redraw := true } = .next State.reset ∧
    hostAct (.setKey 1 true) { State.reset with mode := .halted } =
      .next ({ State.reset with mode := .halted }.putKey 1 true) :=
  ⟨rfl, rfl, rfl, rfl⟩

/-- R237: an image of two bytes; a second load is refused. -/
theorem test_load :
    hostAct (.loadProgram [0x22#8, 0x00#8]) State.reset =
      .next { State.reset with mem := [(0x200, 0x22#8)], loadOpen := false } ∧
    hostAct (.loadProgram []) { State.reset with loadOpen := false } = .refused .loadClosed :=
  ⟨rfl, rfl⟩

/-- H3, R237: an image of 3585 bytes is refused, and the machine does not start. -/
theorem test_load_too_long :
    let s := { State.reset with loadOpen := false, loadRefused := true }
    hostAct (.loadProgram (List.replicate 3585 0xFF#8)) State.reset = .next s ∧
    step s = .refused .imageTooLarge ∧
    hostAct (.singleStep none) { s with mode := .paused } = .refused .imageTooLarge ∧
    hostAct (.loadProgram [0x00#8]) s = .refused .loadClosed := by
  refine ⟨loadProgram_tooLong ?_ rfl (by decide), rfl, rfl, rfl⟩
  rw [List.length_replicate]
  decide

/-! ### Witnesses: the hypotheses of the statements can be met -/

/-- A state with the invariant and with history: JP 0x400 at 0x300, a return address, a key down. -/
def busy : State :=
  { State.reset.putKey 7 true with
    pc := 0x300#16
    mem := [(0x300, 0x14#8)]
    sp := 1
    stack := 0x222#16 :: List.replicate 15 0#16
    regI := 0xFFF#16
    loadOpen := false }

theorem busy_stack : ∀ w ∈ busy.stack, w.toNat ≤ addrMax := by
  intro w h
  obtain rfl | h := List.mem_cons.mp h
  · decide
  · rw [List.eq_of_mem_replicate h]
    decide

theorem busy_inv : busy.Inv :=
  ⟨by decide, by decide, by decide, by decide, by decide, busy_stack, by decide, by decide⟩

theorem witness_ResetMeetsInvariant :
    Config.wellFormed { defaultConfig with stackCapacity := 17, iaddModulus := .m4096 } = true := by
  decide

theorem witness_StepKeepsInvariant :
    busy.Inv ∧ step busy = .next { busy with pc := 0x400#16, ir := 0x1400#16 } := ⟨busy_inv, rfl⟩

theorem witness_HostActionKeepsInvariant :
    busy.Inv ∧ hostAct .pause busy = .next { busy with mode := .paused } := ⟨busy_inv, rfl⟩

/-- A machine that starts, and one whose image was refused. -/
theorem witness_RunningStepAnswersNext :
    (busy.Inv ∧ busy.mode = .running ∧ busy.loadRefused = false) ∧
    ({ busy with loadRefused := true }.Inv ∧ { busy with loadRefused := true }.mode = .running) :=
  ⟨⟨busy_inv, rfl, rfl⟩, { busy_inv with }, rfl⟩

theorem witness_ConfigurationNeverChanges : Reaches busy { busy with mode := .paused } :=
  .act busy _ .pause .refl rfl

theorem witness_DecodeAfterEncode :
    (Instr.sys 0xFFF#12).wellFormed = true ∧ (Instr.drw 15 15 15).wellFormed = true := by decide

theorem witness_EncodeAfterDecode : decode 0xFF65#16 = .ok (.ldVxMem 15) := by decide

/-- One word of each clause. -/
theorem witness_UnsupportedWordsAreTheTable :
    decode 0x5FF1#16 = .error (.unsupported 0x5FF1#16) ∧
    decode 0x9001#16 = .error (.unsupported 0x9001#16) ∧
    decode 0x8008#16 = .error (.unsupported 0x8008#16) ∧
    decode 0xE000#16 = .error (.unsupported 0xE000#16) ∧
    decode 0xFFFF#16 = .error (.unsupported 0xFFFF#16) := by decide

/-- At the highest `pc` a step completes from. -/
theorem witness_StepRunsDecodedInstruction :
    let s := (atPc 0xFFD#16).withFetchWord 16 0x6305
    s.mode = .running ∧ s.loadRefused = false ∧ s.pc.toNat ≤ 0xFFD ∧
    decode (wordOfBytes (s.byteAt s.pc.toNat) (s.byteAt (s.pc.toNat + 1))) =
      .ok (.ldImm 3 5#8) := by decide

theorem witness_FetchIsBigEndian : (atPc 0xFFE#16).pc.toNat ≤ 0xFFE := by decide

theorem witness_StepAtTopOfMemoryFaults :
    (atPc 0xFFF#16).loadRefused = false ∧ (atPc 0xFFE#16).loadRefused = false ∧
    (atPc 0xFFF#16).mode = .running ∧ (atPc 0xFFF#16).pc = 0xFFF#16 ∧
    (atPc 0xFFE#16).mode = .running ∧ (atPc 0xFFE#16).pc = 0xFFE#16 := by decide

theorem witness_UnsupportedWordFaults :
    let s := (atPc 0xFFD#16).withFetchWord 16 0x5121
    s.mode = .running ∧ s.loadRefused = false ∧ s.pc.toNat ≤ 0xFFD ∧
    0x5121#16 = wordOfBytes (s.byteAt s.pc.toNat) (s.byteAt (s.pc.toNat + 1)) ∧
    decode 0x5121#16 = .error (.unsupported 0x5121#16) := by decide

/-- The four clauses, at the ends of the `pc` range; memory at 0xFFD does not hold the words supplied. -/
theorem witness_SuppliedWordStepsAsFetched :
    (atPc 0xFFD#16).loadRefused = false ∧ (atPc 0xFFE#16).loadRefused = false ∧
    (atPc 0xFFD#16).mode = .running ∧ (atPc 0xFFD#16).pc.toNat ≤ 0xFFD ∧
    (atPc 0xFFD#16).byteAt 0xFFD = 0#8 ∧ decode 0x6305#16 = .ok (.ldImm 3 5#8) ∧
    decode 0x5121#16 = .error (.unsupported 0x5121#16) ∧
    (atPc 0xFFE#16).mode = .running ∧ 0xFFD < (atPc 0xFFE#16).pc.toNat ∧
    (let s := (atPc 0xFFE#16).withFetchWord 16 0x6305
     s.pc.toNat ≤ 0xFFE ∧
      0x6305#16 = wordOfBytes (s.byteAt s.pc.toNat) (s.byteAt (s.pc.toNat + 1))) := by decide

/-- The three clauses: a supplied word, a fetched word, and no word. -/
theorem witness_FaultRecordNamesTheStep :
    (State.reset.mode ≠ .halted ∧ ∃ t, runStep (some 0x00EE#16) State.reset = .next t ∧
      t.mode = .halted) ∧
    (∃ t, runStep none ((atPc 0xFFE#16).withFetchWord 16 0x00EE) = .next t ∧ t.mode = .halted) ∧
    (∃ t, runStep none (atPc 0xFFF#16) = .next t ∧ t.mode = .halted) :=
  ⟨⟨by decide, _, rfl, rfl⟩, ⟨_, rfl, rfl⟩, ⟨_, rfl, rfl⟩⟩

theorem witness_ModeChangesOnlyByFault :
    State.reset.mode ≠ .halted ∧
    (∃ t, runStep (some 0x6005#16) State.reset = .next t ∧ t.mode = .running) ∧
    (∃ t, runStep (some 0x00EE#16) State.reset = .next t ∧ t.mode = .halted) :=
  ⟨by decide, ⟨_, rfl, rfl⟩, ⟨_, rfl, rfl⟩⟩

theorem witness_HaltedIsTerminal :
    let s := { State.reset with mode := .halted }
    s.mode = .halted ∧ Reaches s { s with redraw := false } :=
  ⟨rfl, .act _ _ .clearRedraw .refl rfl⟩

/-- Both ends of a single step. -/
theorem witness_PauseResumeAndSingleStep :
    let s := { State.reset with mode := .paused }
    State.reset.mode = .running ∧ s.mode = .paused ∧
    (∃ t, hostAct (.singleStep (some 0x6005#16)) s = .next t ∧ t.mode = .paused) ∧
    (∃ t, hostAct (.singleStep (some 0x00EE#16)) s = .next t ∧ t.mode = .halted) :=
  ⟨rfl, rfl, ⟨_, rfl, rfl⟩, ⟨_, rfl, rfl⟩⟩

theorem witness_RegisterWritersAreTheTable :
    (∃ t, exec (.addReg 1 2) State.reset = .next t) ∧ mayWriteReg (.addReg 1 2) 2 = false ∧
    (∃ t, exec (.ldVxMem 14) State.reset = .next t) ∧ mayWriteReg (.ldVxMem 14) 15 = false :=
  ⟨⟨_, rfl⟩, rfl, ⟨_, rfl⟩, rfl⟩

theorem witness_TimersChangeOnlyByTheirLoads :
    let s := (State.reset.setReg 5 9#8).withFetchWord 16 0xF515
    let u := (State.reset.setReg 5 9#8).withFetchWord 16 0xF518
    let r := State.reset.setReg 5 9#8
    (∃ t, runStep none s = .next t ∧ t.dt ≠ s.dt) ∧
    (∃ t, runStep none u = .next t ∧ t.st ≠ u.st) ∧
    (∃ t, runStep (some 0xF515#16) r = .next t ∧ t.dt ≠ r.dt) ∧
    (∃ t, runStep (some 0xF518#16) r = .next t ∧ t.st ≠ r.st) :=
  ⟨⟨_, rfl, by decide⟩, ⟨_, rfl, by decide⟩, ⟨_, rfl, by decide⟩, ⟨_, rfl, by decide⟩⟩

theorem witness_IndexChangesOnlyByThree :
    (∃ t, exec (.ldI 0x300#12) State.reset = .next t ∧ t.regI ≠ State.reset.regI) ∧
    (∃ t, exec (.addIVx 1) (v12 1#8 0#8) = .next t ∧ t.regI ≠ (v12 1#8 0#8).regI) ∧
    (∃ t, exec (.ldFVx 1) (v12 1#8 0#8) = .next t ∧ t.regI ≠ (v12 1#8 0#8).regI) :=
  ⟨⟨_, rfl, by decide⟩, ⟨_, rfl, by decide⟩, ⟨_, rfl, by decide⟩⟩

theorem witness_DisplayChangesOnlyByTwo :
    (∃ t, exec .cls State.reset = .next t ∧ t.redraw ≠ State.reset.redraw) ∧
    (∃ t, exec (.drw 0 1 5) State.reset = .next t ∧ t.redraw ≠ State.reset.redraw) ∧
    (∃ t, exec (.jp 0#12) { State.reset with redraw := true } = .next t) :=
  ⟨⟨_, rfl, by decide⟩, ⟨_, rfl, by decide⟩, ⟨_, rfl⟩⟩

theorem witness_MemoryChangesOnlyByTwo :
    let s := { v12 255#8 0#8 with regI := 0xFFD#16 }
    (∃ t, exec (.ldBVx 1) s = .next t ∧ t.byteAt 0xFFF ≠ s.byteAt 0xFFF) ∧
    (∃ t, exec (.ldMemVx 1) s = .next t ∧ t.byteAt 0xFFE ≠ s.byteAt 0xFFE) :=
  ⟨⟨_, rfl, by decide⟩, ⟨_, rfl, by decide⟩⟩

theorem witness_StackChangesOnlyByCallAndReturn :
    (∃ t, exec (.call 0x400#12) State.reset = .next t ∧ t.sp ≠ State.reset.sp ∧
      t.stack ≠ State.reset.stack) ∧
    (∃ t, exec .ret busy = .next t ∧ t.sp ≠ busy.sp) :=
  ⟨⟨_, rfl, by decide, by decide⟩, ⟨_, rfl, by decide⟩⟩

theorem witness_KeysChangeOnlyByKeyWait :
    ∃ t, exec (.ldVxK 3) busy = .next t ∧ t.keyDown 7 ≠ busy.keyDown 7 :=
  ⟨_, rfl, by decide⟩

theorem witness_SysIsSilentNoOp :
    0xFFF#12 ≠ 0x0E0#12 ∧ 0xFFF#12 ≠ 0x0EE#12 ∧ (atPc 0xFFD#16).mode = .running ∧
    (atPc 0xFFD#16).loadRefused = false ∧ (atPc 0xFFD#16).pc.toNat ≤ 0xFFD := by decide

/-- The sums 0xFFF and 0x1000. -/
theorem witness_IndexedJumpSetsPc :
    let s := State.reset.setReg 0 0xFF#8
    (0xF00#12).toNat + (s.reg 0).toNat ≤ 0xFFF ∧ 0xFFF < (0xF01#12).toNat + (s.reg 0).toNat := by
  decide

theorem witness_CallPushesReturnAddress :
    ((depth 15).sp < (depth 15).cfg.stackCapacity ∧
      (depth 15).stack.length = (depth 15).cfg.stackCapacity) ∧
    (depth 16).sp = (depth 16).cfg.stackCapacity := by decide

theorem witness_ReturnPopsReturnAddress :
    (busy.sp ≠ 0 ∧ busy.slot busy.sp = some 0x222#16 ∧ (0x222#16).toNat ≤ 0xFFF) ∧
    State.reset.sp = 0 := by decide

theorem witness_CallThenReturnRoundTrip : busy.Inv ∧ busy.sp < busy.cfg.stackCapacity :=
  ⟨busy_inv, by decide⟩

/-- The lowest `SP` of each clause: RET 17 of 16 slots, CALL 17 with `SP ≠ STACK_CAPACITY`. -/
theorem witness_MissingStackSlotStops :
    (depth 17).stack.length < (depth 17).sp ∧
    (depth 17).stack.length ≤ (depth 17).sp ∧ (depth 17).sp ≠ (depth 17).cfg.stackCapacity ∧
    busy.Inv := ⟨by decide, by decide, by decide, busy_inv⟩

theorem witness_SkipsMoveOnByTwo :
    (atPc 0xFFD#16).pc.toNat ≤ 0xFFD ∧ (atPc 0xFFD#16).reg 1 = 0#8 ∧
    (atPc 0xFFD#16).reg 1 ≠ 1#8 := by decide

/-- Each clause: equal and unequal, with an immediate and between registers. -/
theorem witness_SkipsPastTopFault :
    let s := (atPc 0xFFE#16).setReg 2 1#8
    0xFFD < s.pc.toNat ∧ s.reg 1 = 0#8 ∧ s.reg 1 ≠ 1#8 ∧ s.reg 1 = s.reg 3 ∧ s.reg 1 ≠ s.reg 2 := by
  decide

/-- Parked at the highest address that has room, and at 0x20C as program P1 of spec/95. -/
theorem witness_ParkedStepsToItself :
    (((atPc 0xFFD#16).withFetchWord 16 0x1FFD).Parked 0xFFD ∧
      ((atPc 0xFFD#16).withFetchWord 16 0x1FFD).mode = .running ∧
      ((atPc 0xFFD#16).withFetchWord 16 0x1FFD).loadRefused = false) ∧
    ((atPc 0x20C#16).withFetchWord 16 0x120C).Parked 0x20C :=
  ⟨⟨⟨by decide, by decide, by decide, by decide, by decide⟩, rfl, rfl⟩,
    ⟨by decide, by decide, by decide, by decide, by decide⟩⟩

/-- Both dialects of the shift source. -/
theorem witness_ShiftsSetShiftedOutBit :
    (0xAA#8 = match (v12 0xAA#8 5#8).cfg.shiftSource with
      | .vx => (v12 0xAA#8 5#8).reg 1 | .vy => (v12 0xAA#8 5#8).reg 2) ∧
    (5#8 = match (dialectVy (v12 0xAA#8 5#8)).cfg.shiftSource with
      | .vx => (dialectVy (v12 0xAA#8 5#8)).reg 1 | .vy => (dialectVy (v12 0xAA#8 5#8)).reg 2) := by
  decide

/-- No rows, and the last rows that fit. -/
theorem witness_DrawIsCellwiseXor :
    ((0 : RowCount).val = 0) ∧
    { State.reset with regI := 0xFF1#16 }.regI.toNat + (15 : RowCount).val ≤ 4096 := by decide

/-- A clear display and a sprite with a set bit: glyph 0 at (0, 0). -/
theorem witness_DrawTwiceCancels :
    (0 : RegIndex) ≠ 15 ∧ (1 : RegIndex) ≠ 15 ∧ State.reset.regI.toNat + (5 : RowCount).val ≤ 4096 ∧
    (∀ cx cy, State.reset.disp.cell cx cy = false) ∧
    (∃ cx cy, spriteBitOn State.reset (State.reset.reg 0) (State.reset.reg 1) 5 cx cy = true) :=
  ⟨by decide, by decide, by decide, cell_clear, 0, 0, by decide⟩

/-- No key at the ends of the `pc` range; key 3 with key 15 also pressed. -/
theorem witness_KeyWaitCapturesLowest :
    ((∀ k, (atPc 2#16).keyDown k = false) ∧ 2 ≤ (atPc 2#16).pc.toNat ∧
      (atPc 2#16).pc.toNat ≤ 0x1001) ∧
    ((∀ k, (atPc 0x1001#16).keyDown k = false) ∧ 2 ≤ (atPc 0x1001#16).pc.toNat ∧
      (atPc 0x1001#16).pc.toNat ≤ 0x1001) ∧
    (let s := (State.reset.putKey 3 true).putKey 15 true
     s.keyDown 3 = true ∧ ∀ j : KeyIndex, j < 3 → s.keyDown j = false) := by decide

theorem witness_KeySkipsTestTheKey :
    let s := (atPc 0xFFD#16).setReg 4 15#8
    (s.reg 4).toNat = (15 : KeyIndex).val ∧ s.pc.toNat ≤ 0xFFD := by decide

/-- V[X] = 16; and the key up and down with `pc` at 0xFFE. -/
theorem witness_KeySkipFaults :
    15 < ((State.reset.setReg 4 16#8).reg 4).toNat ∧
    (((atPc 0xFFE#16).setReg 4 15#8).reg 4).toNat = (15 : KeyIndex).val ∧
    0xFFD < (atPc 0xFFE#16).pc.toNat ∧
    ((atPc 0xFFE#16).putKey 15 true).keyDown 15 = true ∧
    (atPc 0xFFE#16).keyDown 15 = false := by decide

theorem witness_DecimalStoresDigits :
    { State.reset with regI := 0xFFD#16 }.addressAt 2 ≤ 0xFFF := by decide

theorem witness_StoreRegistersToMemory :
    { State.reset with regI := 0xFF0#16 }.addressAt (15 : RegIndex).val ≤ 0xFFF := by decide

theorem witness_LoadRegistersFromMemory :
    { State.reset with regI := 0xFF0#16 }.addressAt (15 : RegIndex).val ≤ 0xFFF ∧
    { State.reset with regI := 0xFFF#16 }.addressAt (0 : RegIndex).val ≤ 0xFFF := by decide

/-- Each form at the lowest `I` that faults, with its count. -/
theorem witness_BlockFaultsAtLowestAddress :
    (0 < 15 ∧ 0xFFF < { State.reset with regI := 0xFF2#16 }.addressAt (15 - 1)) ∧
    (0 < 3 ∧ 0xFFF < { State.reset with regI := 0xFFE#16 }.addressAt (3 - 1)) ∧
    (0 < 16 ∧ 0xFFF < { State.reset with regI := 0xFF1#16 }.addressAt (16 - 1)) ∧
    (0 < 1 ∧ 0xFFF < { State.reset with regI := 0x1000#16 }.addressAt (1 - 1)) := by decide

/-- M3. -/
theorem witness_StoredWordIsFetched :
    let s := { atPc 0x208#16 with regI := 0x208#16 }
    (0 : RegIndex) < 1 ∧ (1 : RegIndex).val = (0 : RegIndex).val + 1 ∧
    s.addressAt (1 : RegIndex).val ≤ 0xFFF ∧ s.pc.toNat = s.addressAt (0 : RegIndex).val := by decide

/-- The last address that exists and the first that does not. -/
theorem witness_MemoryReadsLatestWrite :
    0xFFF < 0x1000 ∧ 0xFFF ≤ 0xFFF ∧ Memory.wf busy.cfg.font busy.mem = true := by decide

theorem witness_CanonicalMemoryIsUnique :
    let m : Memory := [(0x000, 0x12#8), (0xFFF, 0x34#8)]
    Memory.wf defaultFont m = true ∧
    Memory.write defaultFont (Memory.write defaultFont [] 0xFFF 0x34#8) 0 0x12#8 = m := by decide

/-- The longest image, and one byte more; a closed and a halted machine; a step of each kind and end. -/
theorem witness_ProgramLoadCopiesVerbatim :
    (3584 < (List.replicate 3585 0#8).length ∧ (List.replicate 3584 0#8).length ≤ 3584) ∧
    { State.reset with loadOpen := false }.loadOpen = false ∧
    { State.reset with mode := .halted }.mode = .halted ∧
    (∃ t, hostAct (.step (some 0x6005#16)) State.reset = .next t ∧ t.mode = .running) ∧
    (∃ t, hostAct (.step (some 0x00EE#16)) State.reset = .next t ∧ t.mode = .halted) ∧
    (∃ t, hostAct (.singleStep (some 0x6005#16)) { State.reset with mode := .paused } = .next t) ∧
    State.reset.loadOpen = true ∧ State.reset.mode ≠ .halted := by
  refine ⟨⟨?_, ?_⟩, rfl, rfl, ⟨_, rfl, rfl⟩, ⟨_, rfl, rfl⟩, ⟨_, rfl⟩, rfl, by decide⟩
  · rw [List.length_replicate]; decide
  · rw [List.length_replicate]

end Sys2Proof.Tests
end

section
/-! SUPPORT. The base case of the invariant: the state after reset meets it (spec/10_state.md R43). -/

namespace Sys2Proof.Machine

theorem iaddModulus_pos (m : IAddModulus) : 0 < m.toNat := by
  cases m <;> decide

theorem defaultConfig_wellFormed : defaultConfig.wellFormed = true := by decide

theorem resetWith_stack_le_addrMax (c : Config) :
    ∀ w ∈ (State.resetWith c).stack, w.toNat ≤ addrMax := by
  intro w hw
  rw [List.eq_of_mem_replicate hw]
  decide

/-- Reset meets the invariant in every configuration R6 allows. -/
theorem resetWith_inv {c : Config} (hc : c.wellFormed = true) : (State.resetWith c).Inv where
  cfg_ok := hc
  pc_ok := show (0x200#16 : Word).toNat ≤ addrMax by decide
  regI_ok := iaddModulus_pos c.iaddModulus
  stack_len := List.length_replicate
  sp_ok := Nat.zero_le c.stackCapacity
  stack_ok := resetWith_stack_le_addrMax c
  mem_ok := wf_reset c
  fault_ok := by simp [State.resetWith]

/-- Settles O2: the defaults of R6 are one of the configurations it allows. -/
theorem resetMeetsInvariant : Obligations.ResetMeetsInvariant :=
  ⟨resetWith_inv defaultConfig_wellFormed, fun _ => resetWith_inv⟩

end Sys2Proof.Machine
end

section
/-! SUPPORT. Which fields each instruction leaves alone, said once (`restoreWritten`), and what follows for
one field at a time (spec/10_state.md R22, R25, R27, R28, R31, R32, R35). -/

namespace Sys2Proof.Machine

/-- `t` with every field that instruction `i` may write put back to its value in `s`. -/
def restoreWritten (i : Instr) (s t : State) : State :=
  match i with
  | .sys _ => t
  | .cls => { t with disp := s.disp, redraw := s.redraw }
  | .ret => { t with pc := s.pc, sp := s.sp }
  | .call _ => { t with pc := s.pc, sp := s.sp, stack := s.stack }
  | .jp _ | .jpV0 _ | .seImm _ _ | .sneImm _ _ | .seReg _ _ | .sneReg _ _ | .skp _ | .sknp _ =>
    { t with pc := s.pc }
  | .ldImm _ _ | .addImm _ _ | .ldReg _ _ | .orReg _ _ | .andReg _ _ | .xorReg _ _ | .addReg _ _
  | .subReg _ _ | .shrReg _ _ | .subnReg _ _ | .shlReg _ _ | .ldVxDt _ | .ldVxMem _ =>
    { t with v := s.v }
  | .ldI _ | .addIVx _ | .ldFVx _ => { t with regI := s.regI }
  | .rnd _ _ => { t with v := s.v, draws := s.draws }
  | .drw _ _ _ => { t with v := s.v, disp := s.disp, redraw := s.redraw }
  | .ldVxK _ => { t with v := s.v, key := s.key, pc := s.pc }
  | .ldDtVx _ => { t with dt := s.dt }
  | .ldStVx _ => { t with st := s.st }
  | .ldBVx _ | .ldMemVx _ => { t with mem := s.mem }

/-- An instruction that takes no fault writes only the fields `restoreWritten` puts back. -/
theorem restoreWritten_of_effect {i : Instr} {s t : State} (h : Effect i s t) :
    restoreWritten i s t = s := by
  cases i with
  | sys nnn => exact h
  | ldDtVx x => exact h
  | ldStVx x => exact h
  | ret => exact h.2.1
  | call nnn => exact h.2.1
  | ldVxK x =>
    obtain ⟨⟨hf, _⟩, _⟩ | ⟨k, _, hf, _⟩ := h
    · exact congrArg (fun u : State => { u with v := s.v, key := s.key }) hf
    · exact congrArg (fun u : State => { u with pc := s.pc }) hf
  | _ => exact h.1

/-! ### One field at a time -/

theorem effect_reg {i : Instr} {s t : State} {r : RegIndex} (h : Effect i s t)
    (hr : mayWriteReg i r = false) : t.reg r = s.reg r := by
  have hf := congrArg (fun u => u.reg r) (restoreWritten_of_effect h)
  cases i with
  | ldImm x nn | addImm x nn | ldReg x y | orReg x y | andReg x y | xorReg x y | addReg x y
  | subReg x y | shrReg x y | subnReg x y | shlReg x y | ldVxDt x | ldVxMem x => exact h.2 r hr
  | rnd x nn => exact h.2 r (by simpa [mayWriteReg] using hr)
  | drw x y n => exact h.2.2 r (by simpa [mayWriteReg] using hr)
  | ldVxK x =>
    obtain ⟨⟨hpc, _⟩, _⟩ | ⟨k, _, _, hreg, _⟩ := h
    · exact congrArg (fun u => u.reg r) hpc
    · exact hreg r (by simpa [mayWriteReg] using hr)
  | _ => exact hf

theorem effect_regI {i : Instr} {s t : State} (h : Effect i s t) :
    t.regI = s.regI ∨ (∃ nnn, i = .ldI nnn) ∨ (∃ x, i = .addIVx x) ∨ (∃ x, i = .ldFVx x) := by
  have hf := congrArg State.regI (restoreWritten_of_effect h)
  cases i with
  | ldI nnn => exact .inr (.inl ⟨nnn, rfl⟩)
  | addIVx x => exact .inr (.inr (.inl ⟨x, rfl⟩))
  | ldFVx x => exact .inr (.inr (.inr ⟨x, rfl⟩))
  | _ => exact .inl hf

theorem effect_display {i : Instr} {s t : State} (h : Effect i s t) :
    (t.disp = s.disp ∧ t.redraw = s.redraw) ∨
      t.redraw = true ∧ (i = .cls ∨ ∃ x y n, i = .drw x y n) := by
  have hf := congrArg (fun u => (u.disp, u.redraw)) (restoreWritten_of_effect h)
  cases i with
  | cls => exact .inr ⟨h.2, .inl rfl⟩
  | drw x y n => exact .inr ⟨h.2.1, .inr ⟨x, y, n, rfl⟩⟩
  | _ => exact .inl (Prod.mk.inj hf)

theorem effect_sp {i : Instr} {s t : State} (h : Effect i s t) :
    t.sp = s.sp ∨ i = .ret ∨ ∃ nnn, i = .call nnn := by
  have hf := congrArg State.sp (restoreWritten_of_effect h)
  cases i with
  | ret => exact .inr (.inl rfl)
  | call nnn => exact .inr (.inr ⟨nnn, rfl⟩)
  | _ => exact .inl hf

theorem effect_stack {i : Instr} {s t : State} (h : Effect i s t) :
    t.stack = s.stack ∨ ∃ nnn, i = .call nnn := by
  have hf := congrArg State.stack (restoreWritten_of_effect h)
  cases i with
  | call nnn => exact .inr ⟨nnn, rfl⟩
  | _ => exact .inl hf

/-- The key latch: as it was, or FX0A released the key it captured. -/
theorem effect_key {i : Instr} {s t : State} (h : Effect i s t) :
    t.key = s.key ∨ (∃ x, i = .ldVxK x) ∧ ∃ k, s.lowestKey = some k ∧
      ∀ j, t.keyDown j = if j = k then false else s.keyDown j := by
  have hf := congrArg State.key (restoreWritten_of_effect h)
  cases i with
  | ldVxK x =>
    obtain ⟨⟨hpc, _⟩, _⟩ | ⟨k, hk, _, _, hkey⟩ := h
    · exact .inl (congrArg State.key hpc :)
    · exact .inr ⟨⟨x, rfl⟩, k, hk, hkey⟩
  | _ => exact .inl hf

theorem effect_pc {i : Instr} {s t : State} (h : Effect i s t) :
    t.pc = s.pc ∨ t.pc.toNat ≤ addrMax := by
  have hf := congrArg State.pc (restoreWritten_of_effect h)
  cases i with
  | jp nnn | jpV0 nnn | seImm x nn | sneImm x nn | seReg x y | sneReg x y | skp x | sknp x =>
    exact h.2
  | ret => exact .inr h.2.2.2
  | call nnn =>
    obtain ⟨_, _, _, _, _, hpc⟩ := h
    exact .inr hpc
  | ldVxK x =>
    obtain ⟨_, hpc⟩ | ⟨k, _, hframe, _⟩ := h
    · exact .inr hpc
    · exact .inl (congrArg State.pc hframe :)
  | _ => exact .inl hf

theorem effect_mem_wf {i : Instr} {s t : State} (h : Effect i s t)
    (hm : Memory.wf s.cfg.font s.mem = true) : Memory.wf t.cfg.font t.mem = true := by
  have hf := congrArg (fun u => Memory.wf u.cfg.font u.mem) (restoreWritten_of_effect h)
  cases i with
  | ldBVx x | ldMemVx x => exact h.2.2 hm
  | _ => exact hf.trans hm

/-! ### The whole-machine rules -/

/-- Settles O20: a fault writes no register, and otherwise the effect of the instruction bounds them. -/
theorem registerWritersAreTheTable : Obligations.RegisterWritersAreTheTable := by
  intro i s t r h hr
  obtain ⟨k, rfl⟩ | he := exec_effect h
  · rfl
  · exact effect_reg he hr

/-- Settles O22. -/
theorem indexChangesOnlyByThree : Obligations.IndexChangesOnlyByThree := by
  intro i s t h hne
  obtain ⟨k, rfl⟩ | he := exec_effect h
  · exact absurd rfl hne
  · exact (effect_regI he).resolve_left hne

/-- Settles O23: CLS and DRW both set `Redraw`. -/
theorem displayChangesOnlyByTwo : Obligations.DisplayChangesOnlyByTwo := by
  intro i s t h
  obtain ⟨k, rfl⟩ | he := exec_effect h
  · exact ⟨fun hne => by simp at hne, id⟩
  · obtain ⟨hd, hr⟩ | ⟨hr, hi⟩ := effect_display he
    · exact ⟨fun hne => absurd hne (by simp [hd, hr]), hr.trans⟩
    · exact ⟨fun _ => hi, fun _ => hr⟩

/-- Settles O25. -/
theorem stackChangesOnlyByCallAndReturn : Obligations.StackChangesOnlyByCallAndReturn := by
  intro i s t h
  obtain ⟨k, rfl⟩ | he := exec_effect h
  · exact ⟨fun hne => absurd rfl hne, fun hne => absurd rfl hne⟩
  · exact ⟨(effect_sp he).resolve_left, (effect_stack he).resolve_left⟩

/-- Settles O26: the one key whose flag changes is the lowest pressed one. -/
theorem keysChangeOnlyByKeyWait : Obligations.KeysChangeOnlyByKeyWait := by
  intro i s t j h hne
  obtain ⟨k, rfl⟩ | he := exec_effect h
  · exact absurd rfl hne
  · obtain hkey | ⟨hi, k, hk, hflags⟩ := effect_key he
    · exact absurd (congrArg (fun f : Vector Bool 16 => f.get j) hkey) hne
    · have hj : j = k := by
        by_contra hjk
        exact hne (by rw [hflags, if_neg hjk])
      subst hj
      obtain ⟨hdown, hlow⟩ := lowestKey_eq_some.mp hk
      exact ⟨hi, hdown, by rw [hflags, if_pos rfl], hlow⟩

end Sys2Proof.Machine
end

section
/-! SUPPORT. What a step does to the run mode, the configuration and the invariant (spec/10_state.md R37,
R38, R42; spec/60_exceptions.md R203, R209). -/

namespace Sys2Proof.Machine

/-- What a step from a state not in `Halted` can do: take a fault, or have the effect of the decoded
instruction on the started state. -/
theorem runStep_effect {supplied : Option Word} {s t : State} (hm : s.mode ≠ .halted)
    (h : runStep supplied s = .next t) :
    (∃ w k, t = takeFault s w k) ∨
      ∃ w i, s.pc.toNat ≤ 0xFFD ∧ obtainWord supplied s = .ok w ∧ decode w = .ok i ∧
        Effect i (s.started w) t := by
  obtain ⟨k, _, rfl⟩ | ⟨w, hw, ⟨k, rfl⟩ | ⟨i, u, hp, hd, hu, hend⟩⟩ := runStep_cases h
  · exact .inl ⟨none, k, rfl⟩
  · exact .inl ⟨some w, k, rfl⟩
  · obtain ⟨k, rfl⟩ | he := exec_effect hu
    · obtain ⟨hrun, _⟩ | ⟨_, rfl⟩ := hend
      · exact absurd rfl hrun
      · refine .inl ⟨some w, k, ?_⟩
        have hpc : (s.started w).pc - 2#16 = s.pc := BitVec.add_sub_cancel s.pc 2#16
        rw [raise_fault, hpc]
        rfl
    · have hum : u.mode = s.mode := (effect_keeps_mode he).1
      obtain ⟨_, rfl⟩ | ⟨hhalt, _⟩ := hend
      · exact .inr ⟨w, i, hp, hw, hd, he⟩
      · exact absurd (hum ▸ hhalt) hm

/-- Settles O17. -/
theorem modeChangesOnlyByFault : Obligations.ModeChangesOnlyByFault := by
  intro supplied s t hm h
  obtain ⟨w, k, rfl⟩ | ⟨w, i, _, _, _, he⟩ := runStep_effect hm h
  · exact .inr ⟨rfl, rfl⟩
  · obtain ⟨hmode, hfault, _⟩ := effect_keeps_mode he
    exact .inl ⟨hmode, hfault⟩

/-! ### The configuration -/

theorem runStep_cfg {supplied : Option Word} {s t : State} (hm : s.mode ≠ .halted)
    (h : runStep supplied s = .next t) : t.cfg = s.cfg := by
  obtain ⟨w, k, rfl⟩ | ⟨w, i, _, _, _, he⟩ := runStep_effect hm h
  · rfl
  · exact (effect_keeps_mode he).2.2

theorem loadProgram_cfg {bytes : List Byte} {s t : State} (h : loadProgram bytes s = .next t) :
    t.cfg = s.cfg := by
  simp only [loadProgram] at h
  split at h
  · cases h
  · split at h
    · cases h; rfl
    · cases h; exact putBytes_cfg bytes s programBase

theorem hostAct_cfg {a : HostAction} {s t : State} (h : hostAct a s = .next t) :
    t.cfg = s.cfg := by
  cases a with
  | loadProgram bytes => exact loadProgram_cfg h
  | step w =>
    obtain ⟨hm, _, hrun⟩ := stepRequest_eq_next h
    exact runStep_cfg (by simp [hm]) hrun
  | singleStep w =>
    obtain ⟨hm, _, hrun⟩ := singleStepRequest_eq_next h
    exact runStep_cfg (by simp [hm]) hrun
  | pause =>
    simp only [hostAct, pauseRequest] at h
    split at h <;> cases h <;> rfl
  | resume =>
    simp only [hostAct, resumeRequest] at h
    split at h <;> cases h <;> rfl
  | decrementDelay | decrementSound | readDisplay | clearRedraw | setKey k p | introspect =>
    cases h
    rfl

/-- Settles O6, by induction on the accepted host actions. -/
theorem configurationNeverChanges : Obligations.ConfigurationNeverChanges := by
  intro s t h
  induction h with
  | refl => rfl
  | act t u a _ ha ih => exact (hostAct_cfg ha).trans ih

/-! ### The invariant -/

/-- Fault entry keeps the invariant: it leaves `Halted` together with a record. -/
theorem takeFault_inv {s : State} (w : Option Word) (k : Trap) (hs : s.Inv) :
    (takeFault s w k).Inv :=
  { hs with fault_ok := by simp }

/-- The state a handler is entered with meets the invariant. -/
theorem started_inv {s : State} (w : Word) (hp : s.pc.toNat ≤ 0xFFD) (hs : s.Inv) :
    (s.started w).Inv where
  __ := hs
  pc_ok := by
    show (s.pc + 2#16).toNat ≤ 0xFFF
    rw [toNat_add_two (by omega)]
    omega

/-- `I` stays within the modulus: each of its three writers says so, and no other writes it. -/
theorem effect_regI_lt {i : Instr} {s t : State} (h : Effect i s t)
    (hI : s.regI.toNat < s.cfg.iaddModulus.toNat) : t.regI.toNat < s.cfg.iaddModulus.toNat := by
  obtain hr | ⟨nnn, rfl⟩ | ⟨x, rfl⟩ | ⟨x, rfl⟩ := effect_regI h
  · rw [hr]; exact hI
  · exact h.2 hI
  · exact h.2 hI
  · exact h.2 hI

theorem effect_sp_le {i : Instr} {s t : State} (h : Effect i s t)
    (hsp : s.sp ≤ s.cfg.stackCapacity) : t.sp ≤ s.cfg.stackCapacity := by
  obtain hr | rfl | ⟨nnn, rfl⟩ := effect_sp h
  · rw [hr]; exact hsp
  · obtain ⟨_, _, hdown, _⟩ := h
    omega
  · obtain ⟨hne, _, hup, _⟩ := h
    omega

theorem effect_stack_length {i : Instr} {s t : State} (h : Effect i s t) :
    t.stack.length = s.stack.length := by
  obtain hr | ⟨nnn, rfl⟩ := effect_stack h
  · rw [hr]
  · obtain ⟨_, _, _, _, hstack, _⟩ := h
    rw [hstack, List.length_set]

/-- The one slot written, by CALL, receives the advanced `pc`. -/
theorem effect_stack_le {i : Instr} {s t : State} (h : Effect i s t) (hpc : s.pc.toNat ≤ addrMax)
    (hst : ∀ w ∈ s.stack, w.toNat ≤ addrMax) : ∀ w ∈ t.stack, w.toNat ≤ addrMax := by
  obtain hr | ⟨nnn, rfl⟩ := effect_stack h
  · rw [hr]; exact hst
  · obtain ⟨_, _, _, _, hstack, _⟩ := h
    rw [hstack]
    intro w hw
    obtain hold | rfl := List.mem_or_eq_of_mem_set hw
    · exact hst w hold
    · exact hpc

/-- An instruction that takes no fault keeps the invariant. -/
theorem effect_inv {i : Instr} {s t : State} (h : Effect i s t) (hs : s.Inv) : t.Inv := by
  obtain ⟨hmode, hfault, hcfg⟩ := effect_keeps_mode h
  exact {
    cfg_ok := hcfg ▸ hs.cfg_ok
    pc_ok := (effect_pc h).elim (fun e => e ▸ hs.pc_ok) id
    regI_ok := hcfg ▸ effect_regI_lt h hs.regI_ok
    stack_len := by rw [effect_stack_length h, hcfg]; exact hs.stack_len
    sp_ok := hcfg ▸ effect_sp_le h hs.sp_ok
    stack_ok := effect_stack_le h hs.pc_ok hs.stack_ok
    mem_ok := effect_mem_wf h hs.mem_ok
    fault_ok := by rw [hmode, hfault]; exact hs.fault_ok }

/-- A step on the word in memory or on a supplied one keeps the invariant. -/
theorem runStep_inv {supplied : Option Word} {s t : State} (hm : s.mode ≠ .halted) (hs : s.Inv)
    (h : runStep supplied s = .next t) : t.Inv := by
  obtain ⟨w, k, rfl⟩ | ⟨w, i, hp, _, _, he⟩ := runStep_effect hm h
  · exact takeFault_inv w k hs
  · exact effect_inv he (started_inv w hp hs)

/-- Settles O3: a faulting step keeps the invariant by `takeFault_inv`, any other by `effect_inv`. -/
theorem stepKeepsInvariant : Obligations.StepKeepsInvariant := by
  intro s t hs h
  obtain ⟨hm, _, hrun⟩ := step_eq_next h
  exact runStep_inv (by simp [hm]) hs hrun

end Sys2Proof.Machine
end

section
/-! SUPPORT. The canonical form of memory is determined by what memory reads as (spec/10_state.md R33;
notes/assumptions/6.md). -/

namespace Sys2Proof.Machine

theorem canonicalFrom_cons {font : FontTable} {lo c : Nat} {b : Byte} {rest : Memory} :
    Memory.canonicalFrom font lo ((c, b) :: rest) = true ↔
      lo ≤ c ∧ c ≤ addrMax ∧ b ≠ background font c ∧
        Memory.canonicalFrom font (c + 1) rest = true := by
  simp [Memory.canonicalFrom, and_assoc]

@[simp] theorem read_cons_same (font : FontTable) (c : Nat) (b : Byte) (rest : Memory) :
    Memory.read font ((c, b) :: rest) c = b := by
  simp [Memory.read, Memory.lookup]

theorem read_cons_of_ne {font : FontTable} {a c : Nat} {b : Byte} {rest : Memory} (h : c ≠ a) :
    Memory.read font ((c, b) :: rest) a = Memory.read font rest a := by
  simp [Memory.read, Memory.lookup, h]

/-- Below the addresses it lists memory reads as its reset content. -/
theorem read_of_lt {font : FontTable} {m : Memory} {lo a : Nat} (ha : a < lo)
    (hm : Memory.canonicalFrom font lo m = true) : Memory.read font m a = background font a := by
  induction m generalizing lo with
  | nil => rfl
  | cons p rest ih =>
    obtain ⟨c, b⟩ := p
    obtain ⟨hlo, _, _, hrest⟩ := canonicalFrom_cons.mp hm
    rw [read_cons_of_ne (show c ≠ a by omega)]
    exact ih (by omega) hrest

/-- The first address listed is the first that reads otherwise than its reset content, so a memory that
reads alike lists none above it first. -/
theorem not_head_lt_of_read_eq {font : FontTable} {lo lo' c : Nat} {b : Byte} {rest m : Memory}
    (h : Memory.canonicalFrom font lo ((c, b) :: rest) = true)
    (hm : Memory.canonicalFrom font lo' m = true)
    (hread : Memory.read font ((c, b) :: rest) c = Memory.read font m c) : ¬ c < lo' := by
  intro hlt
  obtain ⟨_, _, hb, _⟩ := canonicalFrom_cons.mp h
  rw [read_cons_same, read_of_lt hlt hm] at hread
  exact hb hread

theorem canonicalFrom_ext {font : FontTable} {m m' : Memory} {lo : Nat}
    (hm : Memory.canonicalFrom font lo m = true) (hm' : Memory.canonicalFrom font lo m' = true)
    (hread : ∀ a, a ≤ addrMax → Memory.read font m a = Memory.read font m' a) : m = m' := by
  induction m generalizing m' lo with
  | nil =>
    cases m' with
    | nil => rfl
    | cons q rest' =>
      obtain ⟨c, b⟩ := q
      obtain ⟨_, hc, hb, _⟩ := canonicalFrom_cons.mp hm'
      have := hread c hc
      rw [read_cons_same] at this
      exact absurd this.symm hb
  | cons p rest ih =>
    obtain ⟨c, b⟩ := p
    obtain ⟨hlo, hc, hb, hrest⟩ := canonicalFrom_cons.mp hm
    cases m' with
    | nil =>
      have := hread c hc
      rw [read_cons_same] at this
      exact absurd this hb
    | cons q rest' =>
      obtain ⟨c', b'⟩ := q
      obtain ⟨hlo', hc', hb', hrest'⟩ := canonicalFrom_cons.mp hm'
      have hle : ¬ c < c' := not_head_lt_of_read_eq hm
        (canonicalFrom_cons.mpr ⟨le_refl c', hc', hb', hrest'⟩) (hread c hc)
      have hge : ¬ c' < c := not_head_lt_of_read_eq hm'
        (canonicalFrom_cons.mpr ⟨le_refl c, hc, hb, hrest⟩) (hread c' hc').symm
      obtain rfl : c = c' := by omega
      have hbb : b = b' := by simpa using hread c hc
      have htail : rest = rest' := by
        refine ih hrest hrest' fun a ha => ?_
        by_cases hac : c = a
        · subst hac
          rw [read_of_lt (Nat.lt_succ_self c) hrest, read_of_lt (Nat.lt_succ_self c) hrest']
        · have := hread a ha
          rwa [read_cons_of_ne hac, read_cons_of_ne hac] at this
      rw [hbb, htail]

/-- Settles O57, by induction on the first list with the lower bound of its addresses. -/
theorem canonicalMemoryIsUnique : Obligations.CanonicalMemoryIsUnique :=
  fun _ _ _ hm hm' hread => canonicalFrom_ext hm hm' hread

end Sys2Proof.Machine
end

section
/-! SUPPORT. The table of the reset state (spec/10_state.md R43), and CALL and RET on a slot the state does
not hold (notes/assumptions/13.md). -/

namespace Sys2Proof.Machine

/-! ### Reset -/

theorem resetWith_slot {c : Config} {k : Nat} (h1 : 1 ≤ k) (h2 : k ≤ c.stackCapacity) :
    (State.resetWith c).slot k = some 0#16 := by
  rw [slot_eq_getElem _ (by omega)]
  exact List.getElem?_replicate_of_lt (by omega)

/-- The font stands at address 0, five bytes a glyph (R34). -/
theorem background_font (font : FontTable) (d : Fin 16) (r : Fin 5) :
    background font (5 * d.val + r.val) = (font.get d).get r := by
  have hd : (5 * d.val + r.val) / 5 = d.val := by omega
  have hr : (5 * d.val + r.val) % 5 = r.val := by omega
  have hlt : 5 * d.val + r.val < 80 := by omega
  simp only [background, dif_pos hlt, hd, hr, Vector.get_eq_getElem]

theorem background_above_font (font : FontTable) {a : Nat} (h : 80 ≤ a) :
    background font a = 0#8 := by
  simp only [background, dif_neg (Nat.not_lt.mpr h)]

theorem resetWith_byteAt (c : Config) (a : Nat) :
    (State.resetWith c).byteAt a = background c.font a := rfl

/-- Settles O1: the entries are those of `State.resetWith`, memory those of `background`. -/
theorem resetStateIsTheTable : Obligations.ResetStateIsTheTable := by
  refine ⟨fun c => ⟨fun x => ?_, rfl, rfl, rfl, fun k => resetWith_slot, rfl, rfl, cell_clear,
    fun d r => ?_, fun a ha _ => ?_, fun k => ?_, rfl, rfl, rfl, rfl⟩, rfl, rfl, rfl, rfl⟩
  · simp [State.reg, State.resetWith, Vector.get_eq_getElem]
  · rw [resetWith_byteAt, background_font]
  · rw [resetWith_byteAt, background_above_font c.font ha]
  · simp [State.keyDown, State.resetWith, Vector.get_eq_getElem]

/-! ### A stack slot that is not there -/

theorem execRet_noSlot {s : State} (h : s.stack.length < s.sp) :
    execRet s = .fault .noSuchStackSlot := by
  have hsp : s.sp ≠ 0 := by omega
  have hslot : s.slot s.sp = none := by
    rw [slot_eq_getElem s hsp]
    exact List.getElem?_eq_none (by omega)
  simp only [execRet, if_neg hsp, hslot]

theorem execCall_noSlot (nnn : Addr12) {s : State} (h : s.stack.length ≤ s.sp)
    (hne : s.sp ≠ s.cfg.stackCapacity) : execCall nnn s = .fault .noSuchStackSlot := by
  simp only [execCall, if_neg hne]
  rw [setSlot_none { s with sp := s.sp + 1 } s.pc (show s.stack.length < s.sp + 1 by omega)]

/-- With the invariant RET answers a next state: the fault of an empty stack, or the return. -/
theorem execRet_next_of_inv {s : State} (hs : s.Inv) : ∃ t, execRet s = .next t := by
  by_cases hsp : s.sp = 0
  · exact ⟨_, by rw [execRet, if_pos hsp]⟩
  · have hlt : s.sp - 1 < s.stack.length := by
      have := hs.sp_ok
      rw [hs.stack_len]
      omega
    have hslot : s.slot s.sp = some s.stack[s.sp - 1] := by
      rw [slot_eq_getElem s hsp, List.getElem?_eq_getElem hlt]
    exact ⟨_, execRet_ok s _ hsp hslot (hs.stack_ok _ (List.getElem_mem hlt))⟩

/-- With the invariant CALL answers a next state: the fault of a full stack, or the call. -/
theorem execCall_next_of_inv (nnn : Addr12) {s : State} (hs : s.Inv) :
    ∃ t, execCall nnn s = .next t := by
  by_cases hsp : s.sp = s.cfg.stackCapacity
  · exact ⟨_, by rw [execCall, if_pos hsp]⟩
  · have hlt : s.sp < s.stack.length := by
      rw [hs.stack_len]
      exact lt_of_le_of_ne hs.sp_ok hsp
    exact ⟨_, execCall_ok nnn s hsp hlt⟩

/-- Settles O33: the slot is missing where `SP` says, and the invariant leaves CALL and RET a next state. -/
theorem missingStackSlotStops : Obligations.MissingStackSlotStops := by
  refine fun nnn s => ⟨execRet_noSlot, execCall_noSlot nnn, fun hs => ⟨fun hf => ?_, fun hf => ?_⟩⟩
  · obtain ⟨t, ht⟩ := execRet_next_of_inv hs
    cases ht.symm.trans hf
  · obtain ⟨t, ht⟩ := execCall_next_of_inv nnn hs
    cases ht.symm.trans hf

end Sys2Proof.Machine
end

section
/-! SUPPORT. The memory rules of spec/20_memory.md: fetch (R57), the checked accesses (R53, R54), what writes
memory (R51, R60), and the blocks at `I` (R55, R56, R67). -/

namespace Sys2Proof.Machine

/-! ### Fetch and the checked accesses -/

/-- Settles O12. -/
theorem fetchIsBigEndian : Obligations.FetchIsBigEndian :=
  fun s h => ⟨s.wordAtPc, fetch_ok s h, wordOfBytes_toNat _ _⟩

/-- Settles O11: the advance stays in memory, so the step is the dispatch of the fetched word. -/
theorem stepRunsDecodedInstruction : Obligations.StepRunsDecodedInstruction := by
  intro s i hm hl hp hd
  have hw : obtainWord none s = .ok s.wordAtPc := obtainWord_fetched s (by omega)
  have hd' : decode s.wordAtPc = .ok i := hd
  rw [step_of_running hm hl, runStep_dispatch hw hp]
  simp only [dispatchWord, hd']
  rfl

theorem memRead_congr {s t : State} {a : Nat} (h : t.byteAt a = s.byteAt a) :
    memRead t a = memRead s a := by
  simp only [memRead, h]

/-- Settles O56: in range `MemWrite` answers `putByte`, which changes the read of its own address only. -/
theorem memoryReadsLatestWrite : Obligations.MemoryReadsLatestWrite := by
  refine fun s a b => ⟨fun h => ⟨memRead_error s h, memWrite_error s b h⟩, fun h =>
    ⟨s.putByte a b, memWrite_ok s b h, ?_, fun c hc => memRead_congr ?_, rfl, wf_putByte b h⟩⟩
  · rw [memRead_ok _ h, byteAt_putByte, if_pos rfl]
  · rw [byteAt_putByte, if_neg hc]

/-! ### What writes memory -/

theorem lt_of_byteAt_ne {s t : State} {base n a : Nat} (h : SameMemoryOutside base n s t)
    (hne : t.byteAt a ≠ s.byteAt a) : base ≤ a ∧ a < base + n := by
  by_contra hout
  exact hne (h a (by omega))

theorem effect_byteAt {i : Instr} {s t : State} (a : Nat) (h : Effect i s t) :
    t.byteAt a = s.byteAt a ∨
      (∃ x, i = .ldBVx x ∧ SameMemoryOutside s.regI.toNat 3 s t) ∨
      (∃ x, i = .ldMemVx x ∧ SameMemoryOutside s.regI.toNat (x.val + 1) s t) := by
  have hf := congrArg (fun u => u.byteAt a) (restoreWritten_of_effect h)
  cases i with
  | ldBVx x => exact .inr (.inl ⟨x, rfl, h.2.1⟩)
  | ldMemVx x => exact .inr (.inr ⟨x, rfl, h.2.1⟩)
  | _ => exact .inl hf

/-- Settles O24: a fault writes no byte, and FX33 and FX55 write only within their block. -/
theorem memoryChangesOnlyByTwo : Obligations.MemoryChangesOnlyByTwo := by
  intro i s t a h hne
  obtain ⟨k, rfl⟩ | he := exec_effect h
  · exact absurd rfl hne
  · obtain hsame | ⟨x, hi, hout⟩ | ⟨x, hi, hout⟩ := effect_byteAt a he
    · exact absurd hsame hne
    · obtain ⟨hlo, hhi⟩ := lt_of_byteAt_ne hout hne
      exact .inl ⟨x, hi, hlo, by omega⟩
    · obtain ⟨hlo, hhi⟩ := lt_of_byteAt_ne hout hne
      exact .inr ⟨x, hi, hlo, by omega⟩

/-! ### Blocks at `I` -/

theorem addressAt_eq_base_add (s : State) (k : Nat) : s.addressAt k = s.addressAt 0 + k := rfl

/-- A handler that answers an error leaves the fault taken (R203). -/
theorem deliver_faultTaken {s : State} {r : Except Trap State} {k : Trap} (h : r = .error k) :
    ∃ t, deliver s r = .next t ∧ FaultTaken s t k :=
  ⟨raise s k, by rw [h, deliver_error], rfl, rfl⟩

/-- A handler that reads a block leaving memory (DXYN, FX65) faults at its lowest bad address. -/
theorem deliver_memReadList_faultTaken (s : State) {n : Nat} (f : List Byte → State) (hn : 0 < n)
    (h : 0xFFF < s.addressAt (n - 1)) :
    ∃ t, deliver s ((memReadList s (s.addressAt 0) n).map f) = .next t ∧
      FaultTaken s t (.outOfRangeAddress (max (s.addressAt 0) 0x1000)) := by
  rw [addressAt_eq_base_add] at h
  exact deliver_faultTaken (by rw [memReadList_error s hn (by omega)]; rfl)

/-- A handler that writes a block leaving memory (FX33, FX55) faults at its lowest bad address. -/
theorem deliver_memWriteList_faultTaken (s : State) {bytes : List Byte} (hb : 0 < bytes.length)
    (h : 0xFFF < s.addressAt (bytes.length - 1)) :
    ∃ t, deliver s (memWriteList s (s.addressAt 0) bytes) = .next t ∧
      FaultTaken s t (.outOfRangeAddress (max (s.addressAt 0) 0x1000)) := by
  rw [addressAt_eq_base_add] at h
  exact deliver_faultTaken (memWriteList_error s bytes (List.length_pos_iff.mp hb) (by omega))

/-- Settles O54: each of the four handlers delivers one block read or one block write. -/
theorem blockFaultsAtLowestAddress : Obligations.BlockFaultsAtLowestAddress := by
  rintro x y n s i count
    (⟨rfl, rfl⟩ | ⟨rfl, rfl⟩ | ⟨rfl, rfl⟩ | ⟨rfl, rfl⟩) hpos hbad
  · exact deliver_memReadList_faultTaken s _ hpos hbad
  · exact deliver_memWriteList_faultTaken s (bytes := decimalDigits (s.reg x)) hpos hbad
  · rw [← regsUpTo_length s x] at hpos hbad
    exact deliver_memWriteList_faultTaken s hpos hbad
  · exact deliver_memReadList_faultTaken s _ hpos hbad

/-- FX55 whose block is within memory: each register at its address, every other byte and field as it was
(R167). -/
theorem exec_ldMemVx_ok {x : RegIndex} {s : State} (h : s.addressAt x.val ≤ 0xFFF) :
    ∃ t, exec (.ldMemVx x) s = .next t ∧
      (∀ k, k ≤ x → t.byteAt (s.addressAt k.val) = s.reg k) ∧
      SameMemoryOutside (s.addressAt 0) (x.val + 1) s t ∧ { t with mem := s.mem } = s := by
  have hlen := regsUpTo_length s x
  rw [addressAt_eq_base_add] at h
  obtain ⟨t, ht, hframe, hin, hout, _⟩ :=
    memWriteList_ok s (s.regsUpTo x) (a := s.addressAt 0) (.inr (by omega))
  refine ⟨t, congrArg (deliver s) ht, fun k hk => ?_, hlen ▸ hout, hframe⟩
  have hkx : k.val ≤ x.val := hk
  have hk' : k.val < (s.regsUpTo x).length := by omega
  rw [addressAt_eq_base_add, hin k.val hk', regsUpTo_getElem]

/-- Settles O55: FX55 leaves `pc`, so the next fetch reads two of the bytes it stored. -/
theorem storedWordIsFetched : Obligations.StoredWordIsFetched := by
  intro x k j s hk hj hx hp
  obtain ⟨t, ht, hstored, _, hframe⟩ := exec_ldMemVx_ok hx
  have hkx : k.val < x.val := hk
  have hpc : t.pc = s.pc := (congrArg State.pc hframe :)
  have hhi : t.byteAt s.pc.toNat = s.reg k := by
    rw [hp]
    exact hstored k hk.le
  have hlo : t.byteAt (s.pc.toNat + 1) = s.reg j := by
    have hnext : s.pc.toNat + 1 = s.addressAt j.val := by
      rw [hp, hj]
      rfl
    rw [hnext]
    exact hstored j (Fin.le_def.mpr (by omega))
  have hrange : t.pc.toNat ≤ 0xFFE := by
    rw [hpc, hp, addressAt_eq_base_add]
    rw [addressAt_eq_base_add] at hx
    omega
  refine ⟨t, ht, ?_⟩
  rw [fetch_ok t hrange, State.wordAtPc, hpc, hhi, hlo]

end Sys2Proof.Machine
end

section
/-! SUPPORT. Decoder and encoder undo each other (spec/30_encoding.md R71 to R79), and the words no handler is
registered for (R80). -/

namespace Sys2Proof

/-! ### Second-level dispatch, by class (R74) -/

theorem decode_of_class0 {w : Word} (h : (fieldC w).toNat = 0x0) : decode w = decode0 w := by
  simp only [decode, h]

theorem decode_of_class5 {w : Word} (h : (fieldC w).toNat = 0x5) :
    decode w = decodeCompare w (.seReg (fieldX w) (fieldY w)) := by
  simp only [decode, h]

theorem decode_of_class8 {w : Word} (h : (fieldC w).toNat = 0x8) : decode w = decode8 w := by
  simp only [decode, h]

theorem decode_of_class9 {w : Word} (h : (fieldC w).toNat = 0x9) :
    decode w = decodeCompare w (.sneReg (fieldX w) (fieldY w)) := by
  simp only [decode, h]

theorem decode_of_classE {w : Word} (h : (fieldC w).toNat = 0xE) : decode w = decodeE w := by
  simp only [decode, h]

theorem decode_of_classF {w : Word} (h : (fieldC w).toNat = 0xF) : decode w = decodeF w := by
  simp only [decode, h]

/-- Every class but 5, 8, 9, E and F has a handler for each of its words (R75, R82). -/
theorem decode_ok_of_class {w : Word} (h : (fieldC w).toNat ∉ [0x5, 0x8, 0x9, 0xE, 0xF]) :
    ∃ i, decode w = .ok i := by
  have hlt := (fieldC w).isLt
  simp only [List.mem_cons, List.not_mem_nil, or_false, not_or] at h
  unfold decode
  split
  case h_1 =>
    unfold decode0
    split_ifs <;> exact ⟨_, rfl⟩
  case h_6 | h_9 | h_10 | h_15 => omega
  case h_16 =>
    simp only [imp_false] at *
    omega
  all_goals exact ⟨_, rfl⟩

/-! ### Decoding an encoded instruction -/

/-- The SYS words are the class-0 words other than 00E0 and 00EE (R75). -/
theorem decode0_wordNNN {nnn : Addr12} (h : sysOperandOk nnn = true) :
    decode0 (wordNNN 0x0#4 nnn) = .ok (.sys nnn) := by
  have hne : ∀ a : Addr12, nnn ≠ a → wordNNN 0x0#4 nnn ≠ wordNNN 0x0#4 a := fun a hna hw =>
    hna (by simpa using congrArg fieldNNN hw)
  simp only [sysOperandOk, Bool.and_eq_true, bne_iff_ne, ne_eq] at h
  have hcls : wordNNN 0x0#4 nnn ≠ 0x00E0#16 := hne 0x0E0#12 h.1
  have hret : wordNNN 0x0#4 nnn ≠ 0x00EE#16 := hne 0x0EE#12 h.2
  rw [decode0, if_neg hcls, if_neg hret, fieldNNN_wordNNN]

/-- Settles O7: every format gives its fields back, and the second-level key is the fixed field. -/
theorem decodeAfterEncode : Obligations.DecodeAfterEncode := by
  intro i hi
  cases i with
  | sys nnn =>
    rw [encode, decode_of_class0 (by simp)]
    exact decode0_wordNNN hi
  | cls | ret => decide
  | jp nnn | call nnn | ldI nnn | jpV0 nnn => simp [encode, decode]
  | seImm x nn | sneImm x nn | ldImm x nn | addImm x nn | rnd x nn => simp [encode, decode]
  | seReg x y | sneReg x y => simp [encode, decode, decodeCompare]
  | ldReg x y | orReg x y | andReg x y | xorReg x y | addReg x y | subReg x y | shrReg x y
  | subnReg x y | shlReg x y => simp [encode, decode, decode8]
  | drw x y n => simp [encode, decode, Fin.ext_iff]
  | skp x | sknp x => simp [encode, decode, decodeE]
  | ldVxDt x | ldVxK x | ldDtVx x | ldStVx x | addIVx x | ldFVx x | ldBVx x | ldMemVx x
  | ldVxMem x => simp [encode, decode, decodeF]

/-! ### Encoding a decoded instruction -/

theorem wordNNN_of_class {c : BitVec 4} {w : Word} (hc : (fieldC w).toNat = c.toNat) :
    wordNNN c (fieldNNN w) = w := by
  rw [← BitVec.eq_of_toNat_eq hc]
  exact (word_eq_wordNNN w).symm

theorem wordXNN_of_class {c : BitVec 4} {w : Word} (hc : (fieldC w).toNat = c.toNat) :
    wordXNN c (fieldX w) (fieldNN w) = w := by
  rw [← BitVec.eq_of_toNat_eq hc]
  exact (word_eq_wordXNN w).symm

theorem wordXYN_of_class {c : BitVec 4} {w : Word} (hc : (fieldC w).toNat = c.toNat) :
    wordXYN c (fieldX w) (fieldY w) (nibble (fieldN w)) = w := by
  rw [← BitVec.eq_of_toNat_eq hc]
  exact (word_eq_wordXYN w).symm

/-- A word whose low byte is fixed by the dispatch (classes E and F). -/
theorem wordXNN_of_lowByte {c : BitVec 4} {nn : Byte} {w : Word}
    (hc : (fieldC w).toNat = c.toNat) (hnn : (fieldNN w).toNat = nn.toNat) :
    wordXNN c (fieldX w) nn = w := by
  rw [← BitVec.eq_of_toNat_eq hnn]
  exact wordXNN_of_class hc

/-- A word whose low nibble is fixed by the dispatch (classes 5, 8 and 9). -/
theorem wordXYN_of_lowNibble {c n : BitVec 4} {w : Word}
    (hc : (fieldC w).toNat = c.toNat) (hn : (fieldN w).val = n.toNat) :
    wordXYN c (fieldX w) (fieldY w) n = w := by
  have hnib : nibble (fieldN w) = n := BitVec.eq_of_toNat_eq (by rw [nibble_toNat, hn])
  rw [← hnib]
  exact wordXYN_of_class hc

theorem encode_of_decode0 {w : Word} {i : Instr} (hc : (fieldC w).toNat = 0x0)
    (h : decode0 w = .ok i) : encode i = w ∧ i.wellFormed = true := by
  have hw : wordNNN 0x0#4 (fieldNNN w) = w := wordNNN_of_class hc
  unfold decode0 at h
  split_ifs at h with hcls hret
  · cases h
    exact ⟨hcls.symm, rfl⟩
  · cases h
    exact ⟨hret.symm, rfl⟩
  · cases h
    have hne : ∀ a : Addr12, w ≠ wordNNN 0x0#4 a → fieldNNN w ≠ a := fun a hwa ha =>
      hwa (by rw [← ha, hw])
    refine ⟨hw, ?_⟩
    simp only [Instr.wellFormed, sysOperandOk, Bool.and_eq_true, bne_iff_ne]
    exact ⟨hne 0x0E0#12 hcls, hne 0x0EE#12 hret⟩

theorem decodeCompare_eq_ok {w : Word} {i j : Instr} (h : decodeCompare w j = .ok i) :
    (fieldN w).val = 0 ∧ j = i := by
  unfold decodeCompare at h
  split_ifs at h with hn
  exact ⟨hn, Except.ok.inj h⟩

theorem encode_of_decode8 {w : Word} {i : Instr} (hc : (fieldC w).toNat = 0x8)
    (h : decode8 w = .ok i) : encode i = w ∧ i.wellFormed = true := by
  unfold decode8 at h
  split at h <;> cases h
  all_goals next hn => exact ⟨wordXYN_of_lowNibble hc hn, rfl⟩

theorem encode_of_decodeE {w : Word} {i : Instr} (hc : (fieldC w).toNat = 0xE)
    (h : decodeE w = .ok i) : encode i = w ∧ i.wellFormed = true := by
  unfold decodeE at h
  split at h <;> cases h
  all_goals next hnn => exact ⟨wordXNN_of_lowByte hc hnn, rfl⟩

theorem encode_of_decodeF {w : Word} {i : Instr} (hc : (fieldC w).toNat = 0xF)
    (h : decodeF w = .ok i) : encode i = w ∧ i.wellFormed = true := by
  unfold decodeF at h
  split at h <;> cases h
  all_goals next hnn => exact ⟨wordXNN_of_lowByte hc hnn, rfl⟩

/-- Settles O8: each class keeps the fields of its format, and second-level dispatch fixes the rest. -/
theorem encodeAfterDecode : Obligations.EncodeAfterDecode := by
  intro w i h
  unfold decode at h
  split at h
  case h_1 hc => exact encode_of_decode0 hc h
  case h_2 hc | h_3 hc | h_11 hc | h_12 hc =>
    cases h
    exact ⟨wordNNN_of_class hc, rfl⟩
  case h_4 hc | h_5 hc | h_7 hc | h_8 hc | h_13 hc =>
    cases h
    exact ⟨wordXNN_of_class hc, rfl⟩
  case h_6 hc | h_10 hc =>
    obtain ⟨hn, rfl⟩ := decodeCompare_eq_ok h
    exact ⟨wordXYN_of_lowNibble hc hn, rfl⟩
  case h_9 hc => exact encode_of_decode8 hc h
  case h_14 hc =>
    cases h
    exact ⟨wordXYN_of_class hc, rfl⟩
  case h_15 hc => exact encode_of_decodeE hc h
  case h_16 =>
    have hlt := (fieldC w).isLt
    simp only [imp_false] at *
    exact encode_of_decodeF (by omega) h

/-! ### The words with no handler (R80) -/

theorem decodeCompare_eq_error {w : Word} {j : Instr} {e : DecodeError} :
    decodeCompare w j = .error e ↔ e = .unsupported w ∧ (fieldN w).val ≠ 0 := by
  unfold decodeCompare
  split_ifs with hn <;> simp [hn, eq_comm]

theorem decode8_eq_error {w : Word} {e : DecodeError} :
    decode8 w = .error e ↔
      e = .unsupported w ∧ (fieldN w).val ∈ [0x8, 0x9, 0xA, 0xB, 0xC, 0xD, 0xF] := by
  have hlt := (fieldN w).isLt
  unfold decode8
  split
  case h_10 =>
    have hmem : (fieldN w).val ∈ [0x8, 0x9, 0xA, 0xB, 0xC, 0xD, 0xF] := by
      simp only [imp_false, List.mem_cons, List.not_mem_nil, or_false] at *
      omega
    simp [hmem, eq_comm]
  all_goals next hn => simp [hn]

theorem decodeE_eq_error {w : Word} {e : DecodeError} :
    decodeE w = .error e ↔ e = .unsupported w ∧ (fieldNN w).toNat ∉ [0x9E, 0xA1] := by
  unfold decodeE
  split
  case h_3 => simp_all [eq_comm]
  all_goals next hnn => simp [hnn]

theorem decodeF_eq_error {w : Word} {e : DecodeError} :
    decodeF w = .error e ↔ e = .unsupported w ∧
      (fieldNN w).toNat ∉ [0x07, 0x0A, 0x15, 0x18, 0x1E, 0x29, 0x33, 0x55, 0x65] := by
  unfold decodeF
  split
  case h_10 => simp_all [eq_comm]
  all_goals next hnn => simp [hnn]

/-- R80's table, in the fields of the word; the error is the word itself (R201). -/
theorem decode_eq_error {w : Word} {e : DecodeError} :
    decode w = .error e ↔ e = .unsupported w ∧
      (((fieldC w).toNat = 5 ∧ (fieldN w).val ≠ 0) ∨ ((fieldC w).toNat = 9 ∧ (fieldN w).val ≠ 0) ∨
      ((fieldC w).toNat = 8 ∧ (fieldN w).val ∈ [0x8, 0x9, 0xA, 0xB, 0xC, 0xD, 0xF]) ∨
      ((fieldC w).toNat = 0xE ∧ (fieldNN w).toNat ∉ [0x9E, 0xA1]) ∨
      ((fieldC w).toNat = 0xF ∧
        (fieldNN w).toNat ∉ [0x07, 0x0A, 0x15, 0x18, 0x1E, 0x29, 0x33, 0x55, 0x65])) := by
  by_cases h : (fieldC w).toNat ∈ [0x5, 0x8, 0x9, 0xE, 0xF]
  · simp only [List.mem_cons, List.not_mem_nil, or_false] at h
    obtain h | h | h | h | h := h
    · simp [decode_of_class5 h, decodeCompare_eq_error, h]
    · rw [decode_of_class8 h, decode8_eq_error]
      simp [h]
    · simp [decode_of_class9 h, decodeCompare_eq_error, h]
    · rw [decode_of_classE h, decodeE_eq_error]
      simp [h]
    · rw [decode_of_classF h, decodeF_eq_error]
      simp [h]
  · obtain ⟨i, hi⟩ := decode_ok_of_class h
    simp only [List.mem_cons, List.not_mem_nil, or_false, not_or] at h
    simp [hi, h]

/-- Settles O10: the fields of the table are digits of the word's number. -/
theorem unsupportedWordsAreTheTable : Obligations.UnsupportedWordsAreTheTable := by
  intro w
  dsimp only
  rw [← fieldC_toNat, ← fieldN_val, ← fieldNN_toNat]
  refine ⟨⟨fun ⟨e, he⟩ => (decode_eq_error.mp he).2, fun h => ?_⟩,
    fun e he => (decode_eq_error.mp he).1⟩
  exact ⟨.unsupported w, decode_eq_error.mpr ⟨rfl, h⟩⟩

/-- Settles O9: the words are closed, so the decoder runs on each. -/
theorem decodesSampleWords : Obligations.DecodesSampleWords := by
  exact ⟨by decide, by decide, by decide, by decide⟩

end Sys2Proof
end

section
/-! SUPPORT. What a step does with its word: a word with no handler, a supplied word, the top of memory
(spec/30_encoding.md R80, R85 to R89); a step in `Running` answers a next state (R200, R203); the register
skips past the top of memory (spec/41_control_flow.md R104 to R107) and SYS (R100). -/

namespace Sys2Proof.Machine

/-! ### The dispatch of a word -/

theorem dispatchWord_ok {start started : State} {w : Word} {i : Instr} (h : decode w = .ok i) :
    dispatchWord start w started = settle start (exec i started) := by
  simp only [dispatchWord, h]

theorem dispatchWord_error {start started : State} {w : Word} {e : DecodeError}
    (h : decode w = .error e) :
    dispatchWord start w started = .next (takeFault start (some w) .unsupportedInstruction) := by
  simp only [dispatchWord, h]

/-- The word is supplied, so no byte of memory is read (R88). -/
theorem obtainWord_supplied (w : Word) (s : State) : obtainWord (some w) s = .ok w := rfl

/-- A step whose word has no handler takes the fault of R80, fetched or supplied. -/
theorem stepRequest_unsupported {supplied : Option Word} {s : State} {w : Word} {e : DecodeError}
    (hm : s.mode = .running) (hl : s.loadRefused = false) (hp : s.pc.toNat ≤ 0xFFD)
    (hw : obtainWord supplied s = .ok w) (hd : decode w = .error e) :
    ∃ t, stepRequest supplied s = .next t ∧ t.mode = .halted ∧
      t.fault = some { kind := .unsupportedInstruction, word := some w, startPc := s.pc } :=
  ⟨takeFault s (some w) .unsupportedInstruction,
    by rw [stepRequest_of_running hm hl, runStep_dispatch hw hp, dispatchWord_error hd], rfl, rfl⟩

/-- A step whose advance leaves memory faults with its word, fetched or supplied (R87). -/
theorem stepRequest_advance_fault {supplied : Option Word} {s : State} {w : Word}
    (hm : s.mode = .running) (hl : s.loadRefused = false) (hp : 0xFFD < s.pc.toNat)
    (hw : obtainWord supplied s = .ok w) :
    ∃ t, stepRequest supplied s = .next t ∧ t.mode = .halted ∧
      t.fault = some { kind := .outOfRangeAddress (s.pc.toNat + 2)
                       word := some w
                       startPc := s.pc } :=
  ⟨takeFault s (some w) (.outOfRangeAddress (s.pc.toNat + 2)),
    by rw [stepRequest_of_running hm hl, runStep_advance_fault hw hp], rfl, rfl⟩

/-- Settles O14. -/
theorem unsupportedWordFaults : Obligations.UnsupportedWordFaults := by
  rintro s w e hm hl hp rfl hd
  exact stepRequest_unsupported hm hl hp (obtainWord_fetched s (by omega)) hd

/-- Settles O13: at 0xFFF the fetch leaves memory, at 0xFFE the advance does. -/
theorem stepAtTopOfMemoryFaults : Obligations.StepAtTopOfMemoryFaults := by
  refine fun s hm hl => ⟨fun hpc => ?_, fun hpc => ?_⟩
  · have hfetch : obtainWord none s = .error (.outOfRangeAddress 0x1000) := by
      rw [obtainWord_fetch_error s (by rw [hpc]; decide), hpc]
      rfl
    refine ⟨takeFault s none (.outOfRangeAddress 0x1000), ?_, rfl, ?_⟩
    · rw [step_of_running hm hl, runStep_fetch_fault hfetch]
    · rw [takeFault_fault, hpc]
  · have hword : s.wordAtPc = wordOfBytes (s.byteAt 0xFFE) (s.byteAt 0xFFF) := by
      rw [State.wordAtPc, hpc]
      rfl
    have hfault := stepRequest_advance_fault hm hl (by rw [hpc]; decide)
      (obtainWord_fetched s (by rw [hpc]; decide))
    rw [hword, hpc] at hfault
    exact hfault

/-! ### A supplied word -/

/-- A step depends on where its word comes from only through the word. -/
theorem stepRequest_congr {a b : Option Word} {s : State} (h : obtainWord a s = obtainWord b s) :
    stepRequest a s = stepRequest b s := by
  simp only [stepRequest, stepIfStarted, runStep, h]

theorem stepRequest_supplied {s : State} {w : Word} {i : Instr} (hm : s.mode = .running)
    (hl : s.loadRefused = false) (hp : s.pc.toNat ≤ 0xFFD) (hd : decode w = .ok i) :
    stepRequest (some w) s = settle s (exec i (s.started w)) := by
  rw [stepRequest_of_running hm hl, runStep_dispatch (obtainWord_supplied w s) hp,
    dispatchWord_ok hd]

/-- Settles O15. -/
theorem suppliedWordStepsAsFetched : Obligations.SuppliedWordStepsAsFetched := by
  refine fun s w => ⟨fun hm hl hp i hd => stepRequest_supplied hm hl hp hd,
    fun hm hl hp e hd => stepRequest_unsupported hm hl hp (obtainWord_supplied w s) hd,
    fun hm hl hp => stepRequest_advance_fault hm hl hp (obtainWord_supplied w s),
    fun hp hw => stepRequest_congr ?_⟩
  rw [obtainWord_supplied, obtainWord_fetched s hp, hw]
  rfl

/-! ### A step in `Running` answers a next state -/

theorem deliver_next (s : State) (r : Except Trap State) : ∃ t, deliver s r = .next t := by
  cases r with
  | ok t => exact ⟨t, rfl⟩
  | error k => exact ⟨raise s k, rfl⟩

/-- With the invariant every instruction answers a next state: CALL and RET find their slot, the other
handlers deliver a state or the fault they raise. -/
theorem exec_next_of_inv (i : Instr) {s : State} (hs : s.Inv) : ∃ t, exec i s = .next t := by
  cases i with
  | ret => exact execRet_next_of_inv hs
  | call nnn => exact execCall_next_of_inv nnn hs
  | jp nnn | jpV0 nnn | seImm x nn | sneImm x nn | seReg x y | sneReg x y | drw x y n | skp x
  | sknp x | ldBVx x | ldMemVx x | ldVxMem x => exact deliver_next s _
  | ldVxK x =>
    simp only [exec, execLdVxK]
    split
    · exact deliver_next s _
    · exact ⟨_, rfl⟩
  | _ => exact ⟨_, rfl⟩

/-- The end of a step leaves a next state a next state. -/
theorem settle_next_exists (start t : State) : ∃ u, settle start (.next t) = .next u := by
  by_cases h : t.mode = .halted
  · exact ⟨_, settle_halted start t h⟩
  · exact ⟨t, settle_next start t h⟩

theorem dispatchWord_next_of_inv (start : State) (w : Word) {started : State}
    (hs : started.Inv) : ∃ t, dispatchWord start w started = .next t := by
  cases hd : decode w with
  | error e => exact ⟨_, dispatchWord_error hd⟩
  | ok i =>
    obtain ⟨u, hu⟩ := exec_next_of_inv i hs
    rw [dispatchWord_ok hd, hu]
    exact settle_next_exists start u

/-- With the invariant a step answers a next state: a fault of the fetch or of the advance is taken, else the
word is dispatched. -/
theorem runStep_next_of_inv (supplied : Option Word) {s : State} (hs : s.Inv) :
    ∃ t, runStep supplied s = .next t := by
  cases hw : obtainWord supplied s with
  | error k => exact ⟨_, runStep_fetch_fault hw⟩
  | ok w =>
    by_cases hp : s.pc.toNat ≤ 0xFFD
    · rw [runStep_dispatch hw hp]
      exact dispatchWord_next_of_inv s w (started_inv w hp hs)
    · exact ⟨_, runStep_advance_fault hw (by omega)⟩

/-- Settles O5. -/
theorem runningStepAnswersNext : Obligations.RunningStepAnswersNext := by
  refine fun s hs hm => ⟨fun hl => ?_, fun hl => ?_⟩
  · rw [step_of_running hm hl]
    exact runStep_next_of_inv none hs
  · simp only [step, stepRequest, hm, stepIfStarted_of_refused hl]

/-! ### Skips past the top of memory -/

/-- Where two bytes are equal the skip on equality faults and the skip on inequality does nothing. -/
theorem skips_past_top_of_eq {s : State} {a b : Byte} (hp : 0xFFD < s.pc.toNat) (h : a = b) :
    (∃ t, deliver s (skipIf (a == b) s) = .next t ∧
      FaultTaken s t (.outOfRangeAddress (s.pc.toNat + 2))) ∧
    deliver s (skipIf (a != b) s) = .next s := by
  have heq : (a == b) = true := beq_iff_eq.mpr h
  have hne : (a != b) = false := bne_eq_false_iff_eq.mpr h
  rw [heq, hne, skipIf_false, deliver_ok]
  exact ⟨deliver_faultTaken (skipIf_error s hp), rfl⟩

/-- Where two bytes differ the skip on inequality faults and the skip on equality does nothing. -/
theorem skips_past_top_of_ne {s : State} {a b : Byte} (hp : 0xFFD < s.pc.toNat) (h : a ≠ b) :
    (∃ t, deliver s (skipIf (a != b) s) = .next t ∧
      FaultTaken s t (.outOfRangeAddress (s.pc.toNat + 2))) ∧
    deliver s (skipIf (a == b) s) = .next s := by
  have heq : (a == b) = false := beq_eq_false_iff_ne.mpr h
  have hne : (a != b) = true := bne_iff_ne.mpr h
  rw [heq, hne, skipIf_false, deliver_ok]
  exact ⟨deliver_faultTaken (skipIf_error s hp), rfl⟩

/-- Settles O35: SE and SNE deliver skips on opposite conditions of the same two bytes. -/
theorem skipsPastTopFault : Obligations.SkipsPastTopFault :=
  fun _ _ _ _ hp => ⟨skips_past_top_of_eq hp, skips_past_top_of_ne hp,
    skips_past_top_of_eq hp, skips_past_top_of_ne hp⟩

/-! ### SYS -/

theorem encode_sys (nnn : Addr12) : encode (.sys nnn) = BitVec.ofNat 16 nnn.toNat := by
  rw [encode, ← ofNat_eq_wordNNN]
  simp

theorem decode_sys {nnn : Addr12} (hcls : nnn ≠ 0x0E0#12) (hret : nnn ≠ 0x0EE#12) :
    decode (BitVec.ofNat 16 nnn.toNat) = .ok (.sys nnn) := by
  rw [← encode_sys]
  exact decodeAfterEncode _ (by simp [Instr.wellFormed, sysOperandOk, hcls, hret])

/-- Settles O27: the handler answers the started state, which is still in `Running`. -/
theorem sysIsSilentNoOp : Obligations.SysIsSilentNoOp := by
  refine fun s nnn hcls hret => ⟨decode_sys hcls hret, rfl, fun hm hl hp => ?_⟩
  rw [stepRequest_supplied hm hl hp (decode_sys hcls hret)]
  exact settle_next s (s.started _) (by simp [State.started, hm])

end Sys2Proof.Machine
end

section
/-! SUPPORT. The jumps, the register skips within memory, CALL and RET (spec/41_control_flow.md R101 to
R108), and the parked machine (spec/60_exceptions.md R221). -/

namespace Sys2Proof.Machine

/-! ### Jumps -/

theorem deliver_setPc_ok (s : State) {a : Nat} (h : a ≤ 0xFFF) :
    deliver s (setPc s a) = .next { s with pc := BitVec.ofNat 16 a } := by
  rw [setPc_ok s h, deliver_ok]

/-- A jump within memory moves `pc` and nothing else (R85). -/
theorem deliver_setPc_onlyPcDiffers (s : State) {a : Nat} (h : a ≤ 0xFFF) :
    ∃ t, deliver s (setPc s a) = .next t ∧ t.pc.toNat = a ∧ OnlyPcDiffers s t :=
  ⟨_, deliver_setPc_ok s h, ofNat_toNat_of_le h, rfl, fun _ => rfl⟩

/-- Settles O28: an address-12 is within memory. -/
theorem jumpSetsPc : Obligations.JumpSetsPc :=
  fun nnn s => deliver_setPc_onlyPcDiffers s (Nat.le_of_lt_succ nnn.isLt)

/-- Settles O29: the handler delivers `SetPC` of the exact sum. -/
theorem indexedJumpSetsPc : Obligations.IndexedJumpSetsPc :=
  fun _ s => ⟨deliver_setPc_onlyPcDiffers s, fun h => deliver_faultTaken (setPc_error s h)⟩

/-! ### Skips within memory -/

/-- The skip on equality where `pc + 2` is an address (R104, R106). -/
theorem skip_on_eq_within {s : State} (a b : Byte) (hp : s.pc.toNat ≤ 0xFFD) :
    deliver s (skipIf (a == b) s) =
      .next { s with pc := if a = b then s.pc + 2#16 else s.pc } := by
  simp only [skipIf_ok _ s hp, deliver_ok, beq_iff_eq]

/-- The skip on inequality where `pc + 2` is an address (R105, R107). -/
theorem skip_on_ne_within {s : State} (a b : Byte) (hp : s.pc.toNat ≤ 0xFFD) :
    deliver s (skipIf (a != b) s) =
      .next { s with pc := if a = b then s.pc else s.pc + 2#16 } := by
  simp only [skipIf_ok _ s hp, deliver_ok, bne_iff_ne, ite_not]

/-- Settles O34: SE skips where the two bytes are equal, SNE where they differ. -/
theorem skipsMoveOnByTwo : Obligations.SkipsMoveOnByTwo :=
  fun x y nn s hp => ⟨skip_on_eq_within (s.reg x) nn hp, skip_on_ne_within (s.reg x) nn hp,
    skip_on_eq_within (s.reg x) (s.reg y) hp, skip_on_ne_within (s.reg x) (s.reg y) hp⟩

/-! ### CALL and RET -/

theorem raise_faultTaken (s : State) (k : Trap) : FaultTaken s (raise s k) k := ⟨rfl, rfl⟩

/-- The slots after a store in place `n`, which holds slot `n + 1` (R27). -/
theorem slot_of_stack_set {s t : State} {n : Nat} {w : Word} (hn : n < s.stack.length)
    (h : t.stack = s.stack.set n w) (k : Nat) :
    t.slot k = if k = n + 1 then some w else s.slot k := by
  cases k with
  | zero => rfl
  | succ j =>
    rw [slot_eq_getElem t j.succ_ne_zero, slot_eq_getElem s j.succ_ne_zero, h,
      Nat.succ_sub_one, List.getElem?_set]
    by_cases hj : n = j
    · simp [hj, hj ▸ hn]
    · simp [hj, Ne.symm hj]

/-- Settles O30: the store is in the place `SP` counts to, so it is the only slot to change. -/
theorem callPushesReturnAddress : Obligations.CallPushesReturnAddress := by
  refine fun nnn s => ⟨fun hsp hlen => ?_, fun hfull => ?_⟩
  · have hroom : s.sp < s.stack.length := hlen.symm ▸ hsp
    refine ⟨_, execCall_ok nnn s hsp.ne hroom, rfl, ?_,
      ofNat_toNat_of_le (Nat.le_of_lt_succ nnn.isLt), fun k hk => ?_, rfl, fun _ => rfl⟩
    · rw [slot_of_stack_set hroom rfl, if_pos rfl]
    · rw [slot_of_stack_set hroom rfl, if_neg hk]
  · exact ⟨raise s .stackOverflow, if_pos hfull, raise_faultTaken s _⟩

/-- Settles O31. -/
theorem returnPopsReturnAddress : Obligations.ReturnPopsReturnAddress := by
  refine fun s target => ⟨fun hsp hslot htarget => ?_, fun hempty => ?_⟩
  · exact ⟨_, execRet_ok s target hsp hslot htarget, rfl,
      Nat.sub_add_cancel (Nat.pos_of_ne_zero hsp), rfl, fun _ => rfl⟩
  · exact ⟨raise s .stackUnderflow, if_pos hempty, raise_faultTaken s _⟩

/-- Settles O32: the RET finds the slot the CALL stored, with an address the invariant bounds. -/
theorem callThenReturnRoundTrip : Obligations.CallThenReturnRoundTrip := by
  intro nnn s p w hs hroom
  obtain ⟨t, ht, htsp, htslot, -⟩ := (callPushesReturnAddress nnn s).1 hroom hs.stack_len
  have hsp : t.sp ≠ 0 := by rw [htsp]; exact Nat.succ_ne_zero _
  have hslot : t.slot t.sp = some s.pc := by rw [htsp]; exact htslot
  obtain ⟨u, hu, hupc, husp, -⟩ :=
    (returnPopsReturnAddress { t with pc := p, ir := w } s.pc).1 hsp hslot hs.pc_ok
  exact ⟨t, u, ht, hu, hupc, Nat.succ.inj (husp.trans htsp)⟩

/-! ### The parked machine (R221) -/

/-- The two bytes of D26, `0x10 | a >> 8` and `a & 0xFF`, are the word of `JP a`. -/
theorem wordOfBytes_eq_encode_jp {a : Nat} (h : a ≤ 0xFFF) :
    wordOfBytes (BitVec.ofNat 8 (0x10 ||| (a >>> 8))) (BitVec.ofNat 8 (a &&& 0xFF)) =
      encode (.jp (BitVec.ofNat 12 a)) := by
  have hhigh : 0x10 ||| (a >>> 8) = 0x10 + a / 256 := by
    rw [Nat.shiftRight_eq_div_pow]
    exact (Nat.two_pow_add_eq_or_of_lt (i := 4) (by omega) 1).symm
  have hlow : a &&& 0xFF = a % 256 := Nat.and_two_pow_sub_one_eq_mod a 8
  apply BitVec.eq_of_toNat_eq
  rw [encode, wordNNN_toNat, wordOfBytes_toNat, hhigh, hlow]
  simp only [BitVec.toNat_ofNat]
  omega

theorem parked_word_decodes {s : State} {a : Nat} (h : s.Parked a) :
    decode s.wordAtPc = .ok (.jp (BitVec.ofNat 12 a)) := by
  have hword : s.wordAtPc = encode (.jp (BitVec.ofNat 12 a)) := by
    rw [State.wordAtPc, h.at_pc, h.high, h.low,
      wordOfBytes_eq_encode_jp (h.bound.trans (by decide))]
  rw [hword]
  exact decodeAfterEncode _ rfl

/-- A parked machine jumps to where it stands. -/
theorem parked_exec {s : State} {a : Nat} (h : s.Parked a) (w : Word) :
    exec (.jp (BitVec.ofNat 12 a)) (s.started w) =
      .next { s with ir := w, loadOpen := false } := by
  have hb := h.bound
  have hpc : s.pc = BitVec.ofNat 16 a := by
    rw [← h.at_pc, BitVec.ofNat_toNat, BitVec.setWidth_eq]
  have htarget : (BitVec.ofNat 12 a).toNat = a := by
    rw [BitVec.toNat_ofNat]
    omega
  calc exec (.jp (BitVec.ofNat 12 a)) (s.started w)
      = .next { s.started w with pc := BitVec.ofNat 16 (BitVec.ofNat 12 a).toNat } :=
        deliver_setPc_ok _ (by omega)
    _ = .next { s with ir := w, loadOpen := false } := by rw [htarget, ← hpc]; rfl

/-- Being parked is a matter of the mode, `pc` and memory. -/
theorem parked_congr {s t : State} {a : Nat} (h : s.Parked a) (hmode : t.mode = s.mode)
    (hpc : t.pc = s.pc) (hmem : SameMemory s t) : t.Parked a where
  not_halted := hmode ▸ h.not_halted
  at_pc := hpc ▸ h.at_pc
  bound := h.bound
  high := (hmem a).trans h.high
  low := (hmem (a + 1)).trans h.low

/-- Settles O36: the step runs the jump to its own address. -/
theorem parkedStepsToItself : Obligations.ParkedStepsToItself := by
  intro s a h hm hl
  have hstep := stepRunsDecodedInstruction s _ hm hl (h.at_pc.trans_le h.bound)
    (parked_word_decodes h)
  refine ⟨{ s with ir := s.wordAtPc, loadOpen := false }, ?_,
    parked_congr h rfl rfl fun _ => rfl, rfl⟩
  calc step s
      = settle s (exec (.jp (BitVec.ofNat 12 a)) (s.started s.wordAtPc)) := hstep
    _ = settle s (.next { s with ir := s.wordAtPc, loadOpen := false }) := by rw [parked_exec h]
    _ = .next { s with ir := s.wordAtPc, loadOpen := false } := settle_next s _ h.not_halted

end Sys2Proof.Machine
end

section
/-! SUPPORT. The register and immediate instructions (spec/42_register_immediate.md R120 to R123) and the
writers of `I` in class F (spec/45_f_family.md R164, R165). -/

namespace Sys2Proof.Machine

/-! ### Words as numbers -/

/-- The word with the number of an instruction's encoding decodes to the instruction. -/
theorem decode_ofNat_of_encode {i : Instr} {n : Nat} (hi : i.wellFormed = true)
    (hn : (encode i).toNat = n) : decode (BitVec.ofNat 16 n) = .ok i := by
  rw [← hn, BitVec.ofNat_toNat, BitVec.setWidth_eq]
  exact decodeAfterEncode i hi

theorem wordXNN_toNat_left (c : BitVec 4) (x : RegIndex) (nn : Byte) :
    (wordXNN c x nn).toNat = 4096 * c.toNat + 256 * x.val + nn.toNat := by
  rw [wordXNN_toNat, Nat.add_assoc]

/-! ### Frames of the updates -/

theorem setReg_onlyRegsDiffer (s : State) (x : RegIndex) (b : Byte) :
    OnlyRegsDiffer s (s.setReg x b) := ⟨rfl, fun _ => rfl⟩

theorem withRegI_onlyIndexDiffers (s : State) (w : Word) :
    OnlyIndexDiffers s { s with regI := w } := ⟨rfl, fun _ => rfl⟩

/-- A handler that writes one register: what holds of the byte holds of the register after it. -/
theorem setReg_result {P : Byte → Prop} (s : State) (x : RegIndex) {b : Byte} (hb : P b) :
    P ((s.setReg x b).reg x) ∧ (∀ r, r ≠ x → (s.setReg x b).reg r = s.reg r) ∧
      OnlyRegsDiffer s (s.setReg x b) :=
  ⟨(reg_setReg_same s x b).symm ▸ hb, fun _ hr => reg_setReg_of_ne s b hr,
    setReg_onlyRegsDiffer s x b⟩

/-! ### The values `I` receives -/

theorem iaddModulus_le (m : IAddModulus) : m.toNat ≤ 65536 := by
  cases m <;> decide

/-- The sum fits `I` in every modulus of R6. -/
theorem indexSum_toNat (s : State) (x : RegIndex) :
    (s.indexSum x).toNat =
      (s.regI.toNat + (s.reg x).toNat) % s.cfg.iaddModulus.toNat :=
  (BitVec.toNat_ofNat _ 16).trans
    (Nat.mod_eq_of_lt ((Nat.mod_lt _ (iaddModulus_pos _)).trans_le (iaddModulus_le _)))

/-- Five times a byte fits `I`, so no bit is lost (R165). -/
theorem glyphAddress_toNat (b : Byte) : (glyphAddress b).toNat = b.toNat * 5 := by
  have hb := b.isLt
  exact (BitVec.toNat_ofNat _ 16).trans (Nat.mod_eq_of_lt (by omega))

/-! ### The obligations -/

/-- Settles O38: each handler writes `I` alone, and each value is below 65536. -/
theorem indexRegisterResults : Obligations.IndexRegisterResults :=
  fun nnn x s =>
    ⟨⟨_, rfl, BitVec.toNat_setWidth_of_le (by decide), withRegI_onlyIndexDiffers s _⟩,
      ⟨_, rfl, indexSum_toNat s x, withRegI_onlyIndexDiffers s _⟩,
      ⟨_, rfl, glyphAddress_toNat (s.reg x), withRegI_onlyIndexDiffers s _⟩⟩

/-- Settles O37: the words are the encodings, and each handler writes VX alone. -/
theorem immediateLoadAndAdd : Obligations.ImmediateLoadAndAdd := by
  refine fun x nn s => ⟨⟨?_, ?_⟩, ⟨s.setReg x nn, rfl, ?_⟩,
    ⟨s.setReg x (sumByte (s.reg x) nn), rfl, ?_⟩⟩
  · exact decode_ofNat_of_encode rfl (wordXNN_toNat_left 0x6#4 x nn)
  · exact decode_ofNat_of_encode rfl (wordXNN_toNat_left 0x7#4 x nn)
  · exact setReg_result (P := (· = nn)) s x rfl
  · exact setReg_result (P := fun b => b.toNat = ((s.reg x).toNat + nn.toNat) % 256) s x
      (sumByte_toNat (s.reg x) nn)

/-- Settles O39: the byte is the model's free draw; whatever it is, the mask and its complement share
no bit. -/
theorem randomByteStaysUnderMask : Obligations.RandomByteStaysUnderMask := by
  intro x nn s
  have hmask (r : Byte) : r &&& nn &&& ~~~nn = 0#8 := by
    rw [BitVec.and_assoc, BitVec.and_not_self]
    exact BitVec.and_zero
  have hreg := reg_setReg_same s x (Config.freeByte s.draws &&& nn)
  refine ⟨_, Config.freeByte s.draws, rfl, hreg, ?_, fun _ hq => reg_setReg_of_ne s _ hq, rfl,
    fun _ => rfl⟩
  exact (congrArg (· &&& ~~~nn) hreg).trans (hmask _)

end Sys2Proof.Machine
end

section
/-! SUPPORT. The class-8 register-to-register instructions (spec/43_alu.md R130 to R139): their words, the
values of results and flags, and the write of result, then flag. -/

namespace Sys2Proof.Machine

/-! ### The words of class 8 -/

/-- An instruction encoded as `8XYN` is what the word with that number decodes to (R77). -/
theorem decode_ofNat_class8 {i : Instr} {x y : RegIndex} (n : BitVec 4) (hi : i.wellFormed = true)
    (he : encode i = wordXYN 0x8#4 x y n) :
    decode (BitVec.ofNat 16 (0x8000 + n.toNat + 256 * x.val + 16 * y.val)) = .ok i := by
  refine decode_ofNat_of_encode hi ?_
  have hclass : (0x8#4).toNat = 8 := rfl
  rw [he, wordXYN_toNat, hclass]
  omega

/-! ### Flags and shifts as numbers -/

theorem flagByte_decide_toNat (p : Prop) [Decidable p] :
    (flagByte (decide p)).toNat = if p then 1 else 0 := by
  by_cases hp : p <;> simp [flagByte, hp]

theorem carryFlag_toNat (a b : Byte) :
    (carryFlag a b).toNat = if a.toNat + b.toNat ≥ 256 then 1 else 0 :=
  flagByte_decide_toNat (256 ≤ a.toNat + b.toNat)

theorem noBorrowFlag_toNat (a b : Byte) :
    (noBorrowFlag a b).toNat = if a.toNat ≥ b.toNat then 1 else 0 :=
  flagByte_decide_toNat (b.toNat ≤ a.toNat)

theorem shiftRightOne_toNat (a : Byte) : (a >>> 1).toNat = a.toNat / 2 := by
  rw [BitVec.toNat_ushiftRight, Nat.shiftRight_eq_div_pow]

theorem shiftedOutRight_toNat (a : Byte) : (shiftedOutRight a).toNat = a.toNat % 2 :=
  (BitVec.toNat_and a 1#8).trans (Nat.and_one_is_mod a.toNat)

theorem shiftLeftOne_toNat (a : Byte) : (a <<< 1).toNat = a.toNat * 2 % 256 := by
  rw [BitVec.toNat_shiftLeft, Nat.shiftLeft_eq]

theorem shiftedOutLeft_toNat (a : Byte) : (shiftedOutLeft a).toNat = a.toNat / 128 := by
  rw [shiftedOutLeft, BitVec.toNat_ushiftRight, Nat.shiftRight_eq_div_pow]

/-! ### Result, then flag (R130) -/

theorem setResultAndFlag_onlyRegsDiffer (s : State) (x : RegIndex) (b f : Byte) :
    OnlyRegsDiffer s (s.setResultAndFlag x b f) := ⟨rfl, fun _ => rfl⟩

/-- A handler that writes a result and then VF: what holds of the result holds of VX unless X = F, and what
holds of the flag holds of VF in every case. -/
theorem setResultAndFlag_result {P Q : Byte → Prop} (s : State) (x : RegIndex) {b f : Byte}
    (hb : P b) (hf : Q f) :
    (x ≠ 15 → P ((s.setResultAndFlag x b f).reg x)) ∧ Q ((s.setResultAndFlag x b f).reg 15) ∧
      (∀ r, r ≠ x → r ≠ 15 → (s.setResultAndFlag x b f).reg r = s.reg r) ∧
      OnlyRegsDiffer s (s.setResultAndFlag x b f) := by
  refine ⟨fun hx => ?_, ?_, fun r hr hr15 => ?_, setResultAndFlag_onlyRegsDiffer s x b f⟩
  · rwa [reg_setResultAndFlag, if_neg hx, if_pos rfl]
  · rwa [reg_setResultAndFlag, if_pos rfl]
  · rw [reg_setResultAndFlag, if_neg hr15, if_neg hr]

/-! ### The obligations -/

/-- Settles O40: the words are the encodings, and each handler writes VX alone, with the bitwise result. -/
theorem logicalOperationsBitwise : Obligations.LogicalOperationsBitwise := by
  refine fun x y s => ⟨⟨decode_ofNat_class8 0x0#4 rfl rfl, decode_ofNat_class8 0x1#4 rfl rfl,
    decode_ofNat_class8 0x2#4 rfl rfl, decode_ofNat_class8 0x3#4 rfl rfl⟩,
    ⟨_, rfl, ?ld⟩, ⟨_, rfl, ?or⟩, ⟨_, rfl, ?and⟩, ⟨_, rfl, ?xor⟩⟩
  case ld => exact setReg_result (P := (· = s.reg y)) s x rfl
  case or =>
    exact setReg_result
      (P := fun b => ∀ k, b.getLsbD k = ((s.reg x).getLsbD k || (s.reg y).getLsbD k)) s x
      fun _ => BitVec.getLsbD_or
  case and =>
    exact setReg_result
      (P := fun b => ∀ k, b.getLsbD k = ((s.reg x).getLsbD k && (s.reg y).getLsbD k)) s x
      fun _ => BitVec.getLsbD_and
  case xor =>
    exact setReg_result
      (P := fun b => ∀ k, b.getLsbD k = xor ((s.reg x).getLsbD k) ((s.reg y).getLsbD k)) s x
      fun _ => BitVec.getLsbD_xor

/-- Settles O41: the carry is computed from the operands before either write, and VF is written last. -/
theorem addSetsCarry : Obligations.AddSetsCarry :=
  fun x y s => ⟨decode_ofNat_class8 0x4#4 rfl rfl, _, rfl,
    setResultAndFlag_result
      (P := fun b => b.toNat = ((s.reg x).toNat + (s.reg y).toNat) % 256)
      (Q := fun f => f.toNat = if (s.reg x).toNat + (s.reg y).toNat ≥ 256 then 1 else 0) s x
      (sumByte_toNat _ _) (carryFlag_toNat _ _)⟩

/-- What SUB and SUBN share: the difference and its no-borrow flag, for operands in either order. -/
theorem setDifference_result (s : State) (x : RegIndex) (a b : Byte) :
    let t := s.setResultAndFlag x (differenceByte a b) (noBorrowFlag a b)
    (x ≠ 15 → ((t.reg x).toNat : Int) = ((a.toNat : Int) - (b.toNat : Int)) % 256) ∧
      (t.reg 15).toNat = (if a.toNat ≥ b.toNat then 1 else 0) ∧
      (∀ r, r ≠ x → r ≠ 15 → t.reg r = s.reg r) ∧ OnlyRegsDiffer s t :=
  setResultAndFlag_result
    (P := fun d => (d.toNat : Int) = ((a.toNat : Int) - (b.toNat : Int)) % 256)
    (Q := fun f => f.toNat = if a.toNat ≥ b.toNat then 1 else 0) s x
    (differenceByte_toNat a b) (noBorrowFlag_toNat a b)

/-- Settles O42: SUB subtracts VY from VX and SUBN VX from VY, by one lemma for both orders. -/
theorem subtractsSetNoBorrow : Obligations.SubtractsSetNoBorrow :=
  fun x y s => ⟨⟨decode_ofNat_class8 0x5#4 rfl rfl, decode_ofNat_class8 0x7#4 rfl rfl⟩,
    ⟨_, rfl, setDifference_result s x (s.reg x) (s.reg y)⟩,
    ⟨_, rfl, setDifference_result s x (s.reg y) (s.reg x)⟩⟩

/-- Settles O43: in both dialects the source is the model's `shiftOperand`, read before any write. -/
theorem shiftsSetShiftedOutBit : Obligations.ShiftsSetShiftedOutBit := by
  intro x y s src hsrc
  obtain rfl : src = s.shiftOperand x y := hsrc
  exact ⟨⟨_, rfl, setResultAndFlag_result
      (P := fun b => b.toNat = (s.shiftOperand x y).toNat / 2)
      (Q := fun f => f.toNat = (s.shiftOperand x y).toNat % 2) s x
      (shiftRightOne_toNat _) (shiftedOutRight_toNat _)⟩,
    ⟨_, rfl, setResultAndFlag_result
      (P := fun b => b.toNat = (s.shiftOperand x y).toNat * 2 % 256)
      (Q := fun f => f.toNat = (s.shiftOperand x y).toNat / 128) s x
      (shiftLeftOne_toNat _) (shiftedOutLeft_toNat _)⟩⟩

end Sys2Proof.Machine
end

section
/-! SUPPORT. The display instructions (spec/44_display.md R150 to R152): DRW in range answers the sprite of the
bytes at `I`, and the sprite loops' closed form, cell by cell, is `spriteBitOn`. -/

namespace Sys2Proof.Machine

/-- Settles O44: `cell_clear` for the cells, and the handler writes nothing else. -/
theorem clearDisplay : Obligations.ClearDisplay :=
  fun _ => ⟨_, rfl, cell_clear, rfl, rfl, fun _ => rfl⟩

/-! ### The sprite at `I` -/

/-- The rows DXYN reads: `n` bytes from `I` on (R151). -/
def State.spriteRows (s : State) (n : Nat) : List Byte :=
  (List.range n).map fun r => s.byteAt (s.addressAt 0 + r)

/-- At most 15 rows on a display of 32: no row wraps onto another. -/
theorem spriteRows_fit (s : State) (n : RowCount) : 0 + (s.spriteRows n.val).length ≤ 32 := by
  simp only [State.spriteRows, List.length_map, List.length_range]
  omega

/-- A sprite whose rows lie in memory is drawn, with no fault. -/
theorem execDrw_ok (x y : RegIndex) (n : RowCount) (s : State)
    (h : n.val = 0 ∨ s.regI.toNat + n.val ≤ 4096) :
    exec (.drw x y n) s =
      .next (s.withSprite (s.reg x) (s.reg y) (s.spriteRows n.val)) := by
  have hread : memReadList s (s.addressAt 0) n.val = .ok (s.spriteRows n.val) :=
    memReadList_ok s h
  simp only [exec, execDrw, hread]
  rfl

/-- A bit of row `r` of the sprite: none past the last row. -/
theorem spriteRows_getLsbD (s : State) (n r k : Nat) :
    ((s.spriteRows n)[r]?.getD 0#8).getLsbD k =
      (decide (r < n) && (s.byteAt (s.regI.toNat + r)).getLsbD k) := by
  by_cases hr : r < n <;> simp [State.spriteRows, State.addressAt, hr]

/-- The bit of the loops' closed form (`cell_drawRows`, `hit_drawRows`) is `spriteBitOn`. -/
theorem spriteBitOn_eq_rows (s : State) (x0 y0 : Byte) (n : Nat) (cx : Fin 64) (cy : Fin 32) :
    spriteBitOn s x0 y0 n cx cy =
      (decide ((cx.val + 256 - x0.toNat) % 64 < 8) &&
        ((s.spriteRows n)[(cy.val + 256 - y0.toNat) % 32]?.getD 0#8).getLsbD
          (7 - (cx.val + 256 - x0.toNat) % 64)) := by
  rw [spriteRows_getLsbD, ← Bool.and_assoc]
  rfl

/-- Which sprite bit falls on a cell depends on `I` and memory only. -/
theorem spriteBitOn_congr {s t : State} (hI : t.regI = s.regI) (hm : SameMemory s t) (x0 y0 : Byte)
    (n : Nat) (cx : Fin 64) (cy : Fin 32) :
    spriteBitOn t x0 y0 n cx cy = spriteBitOn s x0 y0 n cx cy := by
  simp only [spriteBitOn, hI, hm _]

/-! ### The state after a sprite -/

theorem disp_withSprite (s : State) (x0 y0 : Byte) (rows : List Byte) :
    (s.withSprite x0 y0 rows).disp = (drawRows x0 y0 0 rows (s.disp, false)).1 := rfl

theorem cell_withSprite (s : State) (x0 y0 : Byte) (n : RowCount) (cx : Fin 64) (cy : Fin 32) :
    (s.withSprite x0 y0 (s.spriteRows n.val)).disp.cell cx cy =
      xor (s.disp.cell cx cy) (spriteBitOn s x0 y0 n.val cx cy) := by
  rw [disp_withSprite, cell_drawRows x0 y0 cx cy _ 0 _ (spriteRows_fit s n)]
  simp [spriteBitOn_eq_rows]

theorem reg_withSprite_of_ne (s : State) (x0 y0 : Byte) (rows : List Byte) {r : RegIndex}
    (h : r ≠ 15) : (s.withSprite x0 y0 rows).reg r = s.reg r :=
  reg_setReg_of_ne s _ h

theorem vf_withSprite (s : State) (x0 y0 : Byte) (rows : List Byte) :
    (s.withSprite x0 y0 rows).reg 15 =
      collisionFlag (drawRows x0 y0 0 rows (s.disp, false)).2 :=
  reg_setReg_same s 15 _

theorem collisionFlag_eq_one_or_zero (hit : Bool) :
    collisionFlag hit = 1#8 ∨ collisionFlag hit = 0#8 := by
  cases hit <;> decide

theorem collisionFlag_eq_one (hit : Bool) : collisionFlag hit = 1#8 ↔ hit = true := by
  cases hit <;> decide

/-- VF after a sprite is 1 exactly when a set bit fell on a set cell (R152). -/
theorem vf_withSprite_eq_one (s : State) (x0 y0 : Byte) (n : RowCount) :
    (s.withSprite x0 y0 (s.spriteRows n.val)).reg 15 = 1#8 ↔
      ∃ cx cy, s.disp.cell cx cy = true ∧ spriteBitOn s x0 y0 n.val cx cy = true := by
  rw [vf_withSprite, collisionFlag_eq_one, hit_drawRows x0 y0 _ 0 _ (spriteRows_fit s n)]
  simp [spriteBitOn_eq_rows]

/-! ### The obligations -/

/-- Settles O45: the sprite loops in closed form, on the rows read at `I`. -/
theorem drawIsCellwiseXor : Obligations.DrawIsCellwiseXor := by
  intro x y n s h
  refine ⟨_, execDrw_ok x y n s h, cell_withSprite s _ _ n, ?_, vf_withSprite_eq_one s _ _ n,
    fun r hr => reg_withSprite_of_ne s _ _ _ hr, rfl, rfl, fun _ => rfl⟩
  rw [vf_withSprite]
  exact collisionFlag_eq_one_or_zero _

/-- Settles O46: the second draw reads the same operands and the same sprite, so by O45 each cell is XORed
twice with one bit; on a clear display the first draw sets just the cells the second collides with. -/
theorem drawTwiceCancels : Obligations.DrawTwiceCancels := by
  intro x y n s hx hy h
  obtain ⟨t, ht, htcell, htflag, htone, htreg, -, htframe, htmem⟩ := drawIsCellwiseXor x y n s h
  have hI : t.regI = s.regI := (congrArg State.regI htframe :)
  obtain ⟨u, hu, hucell, -, huone, -⟩ := drawIsCellwiseXor x y n t (by rwa [hI])
  simp only [htreg x hx, htreg y hy, spriteBitOn_congr hI htmem, htcell] at hucell huone
  refine ⟨t, u, ht, hu, display_ext fun cx cy => ?_, fun hclear hbit => ⟨?_, ?_⟩⟩
  · rw [hucell, Bool.xor_assoc, Bool.xor_self, Bool.xor_false]
  · refine htflag.resolve_left fun hone => ?_
    obtain ⟨cx, cy, hset, -⟩ := htone.mp hone
    exact absurd hset (by simp [hclear])
  · obtain ⟨cx, cy, hbit⟩ := hbit
    exact huone.mpr ⟨cx, cy, by simp [hclear, hbit], hbit⟩

end Sys2Proof.Machine
end

section
/-! SUPPORT. The class-F instructions (spec/45_f_family.md R160 to R163, R166 to R168): the timer moves with
their words, the key wait, the decimal digits and the register block at `I`. -/

namespace Sys2Proof.Machine

/-! ### The timers -/

/-- An instruction encoded as `FXNN` is what the word with that number decodes to (R79). -/
theorem decode_ofNat_classF {i : Instr} {x : RegIndex} (nn : Byte) (hi : i.wellFormed = true)
    (he : encode i = wordXNN 0xF#4 x nn) :
    decode (BitVec.ofNat 16 (0xF000 + nn.toNat + 256 * x.val)) = .ok i := by
  refine decode_ofNat_of_encode hi ?_
  have hclass : (0xF#4).toNat = 15 := rfl
  rw [he, wordXNN_toNat, hclass]
  omega

/-- Settles O47: the words are the encodings, and each handler writes VX or the one timer. -/
theorem timerMoves : Obligations.TimerMoves :=
  fun x s => ⟨⟨decode_ofNat_classF 0x07#8 rfl rfl, decode_ofNat_classF 0x15#8 rfl rfl,
    decode_ofNat_classF 0x18#8 rfl rfl⟩,
    ⟨_, rfl, setReg_result (P := (· = s.dt)) s x rfl⟩,
    ⟨_, rfl, rfl, rfl, fun _ => rfl⟩,
    ⟨_, rfl, rfl, rfl, fun _ => rfl⟩⟩

/-! ### The key wait -/

theorem exec_ldVxK_of_noKey {x : RegIndex} {s : State} (h : s.lowestKey = none) :
    exec (.ldVxK x) s = deliver s (setPc s (s.pc - 2#16).toNat) := by
  simp only [exec, execLdVxK, h]

theorem exec_ldVxK_of_key {x : RegIndex} {s : State} {k : KeyIndex} (h : s.lowestKey = some k) :
    exec (.ldVxK x) s = .next ((s.setReg x (BitVec.ofNat 8 k.val)).putKey k false) := by
  simp only [exec, execLdVxK, h]

/-- The key latch is apart from the registers. -/
@[simp] theorem reg_putKey (s : State) (k : KeyIndex) (p : Bool) (r : RegIndex) :
    (s.putKey k p).reg r = s.reg r := rfl

/-- Settles O48: with no key the handler is a jump back by 2, else it writes VX and one key flag. -/
theorem keyWaitCapturesLowest : Obligations.KeyWaitCapturesLowest := by
  refine fun x s => ⟨fun hnone hlo hhi => ?_, fun k hk hlow => ?_⟩
  · have hback := toNat_sub_two hlo
    obtain ⟨t, ht, hpc, honly⟩ :=
      deliver_setPc_onlyPcDiffers s (show (s.pc - 2#16).toNat ≤ 0xFFF by omega)
    exact ⟨t, (exec_ldVxK_of_noKey (lowestKey_eq_none.mpr hnone)).trans ht, by omega, honly⟩
  · have hflag (j : KeyIndex) := keyDown_putKey (s.setReg x (BitVec.ofNat 8 k.val)) k j false
    refine ⟨_, exec_ldVxK_of_key (lowestKey_eq_some.mpr ⟨hk, hlow⟩), ?_, ?_, fun r hr => ?_,
      fun j hj => ?_, rfl, fun _ => rfl⟩
    · rw [reg_putKey, reg_setReg_same, BitVec.toNat_ofNat, Nat.mod_eq_of_lt (by omega)]
    · rw [hflag, if_pos rfl]
    · rw [reg_putKey, reg_setReg_of_ne s _ hr]
    · rw [hflag, if_neg hj]
      rfl

/-! ### Blocks at `I` -/

theorem decimalDigits_length (b : Byte) : (decimalDigits b).length = 3 := rfl

/-- Settles O51: the block of three digits at `I` is within memory, and each digit fits a byte. -/
theorem decimalStoresDigits : Obligations.DecimalStoresDigits := by
  intro x s h
  have hlen := decimalDigits_length (s.reg x)
  rw [addressAt_eq_base_add] at h
  obtain ⟨t, ht, hframe, hin, hout, -⟩ :=
    memWriteList_ok s (decimalDigits (s.reg x)) (a := s.addressAt 0) (.inr (by omega))
  have hdigit (k n : Nat) (hk : k < (decimalDigits (s.reg x)).length)
      (he : (decimalDigits (s.reg x))[k] = BitVec.ofNat 8 n) (hn : n < 256) :
      (t.byteAt (s.addressAt k)).toNat = n := by
    rw [addressAt_eq_base_add, hin k hk, he, BitVec.toNat_ofNat, Nat.mod_eq_of_lt hn]
  have hb := (s.reg x).isLt
  exact ⟨t, congrArg (deliver s) ht, hdigit 0 _ (by omega) rfl (by omega),
    hdigit 1 _ (by omega) rfl (by omega), hdigit 2 _ (by omega) rfl (by omega), hlen ▸ hout, hframe⟩

/-- Settles O52: the spec of FX55 that O55 uses. -/
theorem storeRegistersToMemory : Obligations.StoreRegistersToMemory :=
  fun _ _ => exec_ldMemVx_ok

/-- The registers after a block load from V0 on: those below the block's length receive its bytes (R168). -/
theorem reg_setRegsFrom_range (s : State) (f : Nat → Byte) {n : Nat} (hn : n ≤ 16) (r : RegIndex) :
    (s.setRegsFrom 0 ((List.range n).map f)).reg r = if r.val < n then f r.val else s.reg r := by
  rw [reg_setRegsFrom _ s 0 r (by simpa using hn)]
  by_cases hr : r.val < n <;> simp [hr]

theorem setRegsFrom_onlyRegsDiffer (s : State) (k : Nat) (bytes : List Byte) :
    OnlyRegsDiffer s (s.setRegsFrom k bytes) :=
  ⟨setRegsFrom_frame bytes s k, fun a =>
    (congrArg (fun u => u.byteAt a) (setRegsFrom_frame bytes s k) :)⟩

/-- FX65 whose block is within memory answers the register load, with no fault. -/
theorem exec_ldVxMem_ok {x : RegIndex} {s : State} (h : s.addressAt x.val ≤ 0xFFF) :
    exec (.ldVxMem x) s = .next
      (s.setRegsFrom 0 ((List.range (x.val + 1)).map fun k => s.byteAt (s.addressAt k))) := by
  rw [addressAt_eq_base_add] at h
  have hread := memReadList_ok s (n := x.val + 1) (a := s.addressAt 0) (.inr (by omega))
  simp only [exec, execLdVxMem, hread]
  rfl

/-- Settles O53: the load writes V0 to VX, one byte of the block each. -/
theorem loadRegistersFromMemory : Obligations.LoadRegistersFromMemory := by
  intro x s h
  have hreg := reg_setRegsFrom_range s (fun k => s.byteAt (s.addressAt k)) (n := x.val + 1) x.isLt
  refine ⟨_, exec_ldVxMem_ok h, fun k hk => ?_, fun k hk => ?_, setRegsFrom_onlyRegsDiffer s 0 _⟩
  · rw [hreg, if_pos (Nat.lt_succ_of_le hk)]
  · rw [hreg, if_neg (Nat.not_lt.mpr hk)]

end Sys2Proof.Machine
end

section
/-! SUPPORT. The key skips (spec/46_key_skip.md R180, R181). -/

namespace Sys2Proof.Machine

/-! ### The key skips as skips on a flag -/

/-- With VX naming a key SKP is the skip on its flag (R180). -/
theorem exec_skp_of_key {x : RegIndex} {s : State} {k : KeyIndex} (h : (s.reg x).toNat = k.val) :
    exec (.skp x) s = deliver s (skipIf (s.keyDown k) s) := by
  simp only [exec, execSkp, keyQuery_ok x s k h, Except.bind]

/-- With VX naming a key SKNP is the skip on its flag negated (R181). -/
theorem exec_sknp_of_key {x : RegIndex} {s : State} {k : KeyIndex} (h : (s.reg x).toNat = k.val) :
    exec (.sknp x) s = deliver s (skipIf (!s.keyDown k) s) := by
  simp only [exec, execSknp, keyQuery_ok x s k h, Except.bind]

/-- A handler that starts with the key query takes the query's fault where VX names no key, whatever it
does with the flag (R180, R181). -/
theorem deliver_keyQuery_faultTaken {x : RegIndex} {s : State} (h : 15 < (s.reg x).toNat)
    (f : Bool → Except Trap State) :
    ∃ t, deliver s ((keyQuery x s).bind f) = .next t ∧
      FaultTaken s t (.keyIndexOutOfRange (s.reg x)) :=
  deliver_faultTaken (congrArg (Except.bind · f) (keyQuery_error x s h))

/-- Of two skips on opposite conditions past the top of memory, the taken one faults and the other leaves
the state as it is (R202). -/
theorem opposite_skips_past_top {taken untaken : Bool} {s : State} (ht : taken = true)
    (hu : untaken = false) (hp : 0xFFD < s.pc.toNat) :
    (∃ t, deliver s (skipIf taken s) = .next t ∧
      FaultTaken s t (.outOfRangeAddress (s.pc.toNat + 2))) ∧
    deliver s (skipIf untaken s) = .next s := by
  rw [ht, hu, skipIf_false, deliver_ok]
  exact ⟨deliver_faultTaken (skipIf_error s hp), rfl⟩

/-! ### The obligations -/

/-- Settles O50: the key query faults first; with a key, SKP and SKNP skip on opposite conditions. -/
theorem keySkipFaults : Obligations.KeySkipFaults := by
  refine fun x s => ⟨fun hx => ?_, fun k hk hp => ?_⟩
  · exact ⟨deliver_keyQuery_faultTaken hx _, deliver_keyQuery_faultTaken hx _⟩
  · rw [exec_skp_of_key hk, exec_sknp_of_key hk]
    exact ⟨fun hdown => opposite_skips_past_top hdown ((Bool.not_eq_false' _).mpr hdown) hp,
      fun hup => opposite_skips_past_top ((Bool.not_eq_true' _).mpr hup) hup hp⟩

/-- Settles O49: within memory the skip on a flag, or on its negation, writes only `pc`. -/
theorem keySkipsTestTheKey : Obligations.KeySkipsTestTheKey := by
  refine fun x s k hk hp => ⟨?skp, ?sknp⟩
  case skp => rw [exec_skp_of_key hk, skipIf_ok _ s hp, deliver_ok]
  case sknp =>
    rw [exec_sknp_of_key hk, skipIf_ok _ s hp, deliver_ok]
    simp only [Bool.not_eq_true', ← Bool.not_eq_true, ite_not]

end Sys2Proof.Machine
end

section
/-! SUPPORT. The host actions that are no steps (spec/60_exceptions.md R209, R214, R216 to R218;
spec/70_reset_and_hazards.md R237): what each can do, that each keeps the invariant, and that none leaves
`Halted` or a machine whose program image was refused. -/

namespace Sys2Proof.Machine

/-! ### What a host action can do -/

theorem pauseRequest_of_running {s : State} (h : s.mode = .running) :
    pauseRequest s = .next { s with mode := .paused } := by
  simp only [pauseRequest, h]

theorem resumeRequest_of_paused {s : State} (h : s.mode = .paused) :
    resumeRequest s = .next { s with mode := .running } := by
  simp only [resumeRequest, h]

/-- What Pause can do: pause a running machine, or leave a halted one as it is (R209). -/
theorem pauseRequest_eq_next {s t : State} (h : pauseRequest s = .next t) :
    s.mode = .running ∧ t = { s with mode := .paused } ∨ s.mode = .halted ∧ t = s := by
  cases hm : s.mode with
  | running =>
    rw [pauseRequest_of_running hm] at h
    exact .inl ⟨rfl, (Host.Outcome.next.inj h).symm⟩
  | paused => simp [pauseRequest, hm] at h
  | halted =>
    simp only [pauseRequest, hm] at h
    exact .inr ⟨rfl, (Host.Outcome.next.inj h).symm⟩

/-- What Resume can do: resume a paused machine, or leave a halted one as it is (R209). -/
theorem resumeRequest_eq_next {s t : State} (h : resumeRequest s = .next t) :
    s.mode = .paused ∧ t = { s with mode := .running } ∨ s.mode = .halted ∧ t = s := by
  cases hm : s.mode with
  | running => simp [resumeRequest, hm] at h
  | paused =>
    rw [resumeRequest_of_paused hm] at h
    exact .inl ⟨rfl, (Host.Outcome.next.inj h).symm⟩
  | halted =>
    simp only [resumeRequest, hm] at h
    exact .inr ⟨rfl, (Host.Outcome.next.inj h).symm⟩

/-- What LoadProgram can do, while load is open: refuse an over-long image for good, or copy the image
(R237). -/
theorem loadProgram_eq_next {bytes : List Byte} {s t : State} (h : loadProgram bytes s = .next t) :
    (s.loadOpen = true ∧ s.mode ≠ .halted) ∧
      (maxProgram < bytes.length ∧ t = { s with loadOpen := false, loadRefused := true } ∨
        bytes.length ≤ maxProgram ∧
          t = { s.putBytes programBase bytes with loadOpen := false }) := by
  by_cases hclosed : s.loadOpen = false ∨ s.mode = .halted
  · rw [loadProgram_closed bytes hclosed] at h
    cases h
  · obtain ⟨ho, hm⟩ := not_or.mp hclosed
    have ho := (Bool.not_eq_false _).mp ho
    refine ⟨⟨ho, hm⟩, ?_⟩
    by_cases hlen : bytes.length ≤ maxProgram
    · rw [loadProgram_accepted hlen ho hm] at h
      exact .inr ⟨hlen, (Host.Outcome.next.inj h).symm⟩
    · rw [loadProgram_tooLong (Nat.lt_of_not_le hlen) ho hm] at h
      exact .inl ⟨Nat.lt_of_not_le hlen, (Host.Outcome.next.inj h).symm⟩

/-! ### The invariant -/

/-- Moving between `Running` and `Paused` keeps the invariant: neither has a fault record. -/
theorem setMode_inv {s : State} {m : Mode} (hs : s.Inv) (h : s.mode ≠ .halted) (hm : m ≠ .halted) :
    { s with mode := m }.Inv :=
  { hs with fault_ok := iff_of_false (mt hs.fault_ok.mp h) hm }

/-- Bytes copied within memory keep the invariant, which reads memory only through its canonical form. -/
theorem putBytes_inv {s : State} {a : Nat} {bytes : List Byte} (hs : s.Inv)
    (hlen : a + bytes.length ≤ 4096) : (s.putBytes a bytes).Inv := by
  have hrest : { s.putBytes a bytes with mem := s.mem }.Inv :=
    (putBytes_frame bytes s a).symm ▸ hs
  exact { hrest with mem_ok := wf_putBytes bytes s a hlen hs.mem_ok }

theorem loadProgram_inv {bytes : List Byte} {s t : State} (hs : s.Inv)
    (h : loadProgram bytes s = .next t) : t.Inv := by
  obtain ⟨_, ⟨_, rfl⟩ | ⟨hlen, rfl⟩⟩ := loadProgram_eq_next h
  · exact { hs with }
  · have hfits : programBase + bytes.length ≤ 4096 := Nat.add_le_add_left hlen programBase
    exact { putBytes_inv hs hfits with }

/-- Settles O4: the steps by `runStep_inv`, a load by `loadProgram_inv`; no other action touches a field
the invariant reads but `Mode`. -/
theorem hostActionKeepsInvariant : Obligations.HostActionKeepsInvariant := by
  intro a s t hs h
  cases a with
  | loadProgram bytes => exact loadProgram_inv hs h
  | step w =>
    obtain ⟨hm, _, hrun⟩ := stepRequest_eq_next h
    exact runStep_inv (by simp [hm]) hs hrun
  | singleStep w =>
    obtain ⟨hm, _, hrun⟩ := singleStepRequest_eq_next h
    exact runStep_inv (by simp [hm]) hs hrun
  | pause =>
    obtain ⟨hm, rfl⟩ | ⟨_, rfl⟩ := pauseRequest_eq_next h
    · exact setMode_inv hs (by simp [hm]) (by decide)
    · exact hs
  | resume =>
    obtain ⟨hm, rfl⟩ | ⟨_, rfl⟩ := resumeRequest_eq_next h
    · exact setMode_inv hs (by simp [hm]) (by decide)
    · exact hs
  | decrementDelay | decrementSound | readDisplay | clearRedraw | setKey k p | introspect =>
    obtain rfl := Host.Outcome.next.inj h
    exact { hs with }

/-! ### `Halted` (R205, R209) -/

theorem stepRequest_of_halted (w : Option Word) {s : State} (h : s.mode = .halted) :
    stepRequest w s = .refused .halted := by
  simp only [stepRequest, h]

theorem singleStepRequest_of_halted (w : Option Word) {s : State} (h : s.mode = .halted) :
    singleStepRequest w s = .refused .halted := by
  simp only [singleStepRequest, h]

/-- What the host can do to a halted machine leaves it halted, with its record. -/
theorem hostAct_of_halted {a : HostAction} {s t : State} (hs : s.mode = .halted)
    (h : hostAct a s = .next t) : t.mode = .halted ∧ t.fault = s.fault := by
  cases a with
  | loadProgram bytes => exact absurd hs (loadProgram_eq_next h).1.2
  | step w => rw [hostAct, stepRequest_of_halted w hs] at h; cases h
  | singleStep w => rw [hostAct, singleStepRequest_of_halted w hs] at h; cases h
  | pause =>
    obtain ⟨hm, _⟩ | ⟨_, rfl⟩ := pauseRequest_eq_next h
    · rw [hs] at hm; cases hm
    · exact ⟨hs, rfl⟩
  | resume =>
    obtain ⟨hm, _⟩ | ⟨_, rfl⟩ := resumeRequest_eq_next h
    · rw [hs] at hm; cases hm
    · exact ⟨hs, rfl⟩
  | decrementDelay | decrementSound | readDisplay | clearRedraw | setKey k p | introspect =>
    obtain rfl := Host.Outcome.next.inj h
    exact ⟨hs, rfl⟩

theorem reaches_of_halted {s t : State} (hs : s.mode = .halted) (h : Reaches s t) :
    t.mode = .halted ∧ t.fault = s.fault := by
  induction h with
  | refl => exact ⟨hs, rfl⟩
  | act t u a _ ha ih =>
    obtain ⟨hm, hf⟩ := ih
    obtain ⟨hm', hf'⟩ := hostAct_of_halted hm ha
    exact ⟨hm', hf'.trans hf⟩

/-- Settles O18, by induction on the accepted host actions. -/
theorem haltedIsTerminal : Obligations.HaltedIsTerminal :=
  fun _ hs => ⟨stepRequest_of_halted none hs, fun w => stepRequest_of_halted w hs,
    fun w => singleStepRequest_of_halted w hs, fun _ => reaches_of_halted hs⟩

/-! ### LoadProgram (R237) -/

theorem stepRequest_of_loadRefused (w : Option Word) {s : State} (h : s.loadRefused = true) :
    ∃ r, stepRequest w s = .refused r := by
  cases hm : s.mode <;> simp [stepRequest, hm, stepIfStarted_of_refused h]

theorem singleStepRequest_of_loadRefused (w : Option Word) {s : State} (h : s.loadRefused = true) :
    ∃ r, singleStepRequest w s = .refused r := by
  cases hm : s.mode <;> simp [singleStepRequest, hm, stepIfStarted_of_refused h]

/-- Where the host can lead a machine whose program image was refused. -/
theorem reaches_of_loadRefused {s t : State} (hr : s.loadRefused = true) (ho : s.loadOpen = false)
    (h : Reaches s t) :
    t.loadRefused = true ∧ t.loadOpen = false ∧ t.pc = s.pc ∧ t.v = s.v ∧ t.mem = s.mem := by
  induction h with
  | refl => exact ⟨hr, ho, rfl, rfl, rfl⟩
  | act t u a _ ha ih =>
    obtain ⟨hr, ho, hpc, hv, hmem⟩ := ih
    obtain ⟨hr', ho', hpc', hv', hmem'⟩ := hostAct_of_loadRefused hr ho ha
    exact ⟨hr', ho', hpc'.trans hpc, hv'.trans hv, hmem'.trans hmem⟩

/-- Settles O59: `byteAt_putBytes` says where the accepted image went, `reaches_of_loadRefused` what can
follow a refused one. -/
theorem programLoadCopiesVerbatim : Obligations.ProgramLoadCopiesVerbatim := by
  refine fun bytes s => ⟨fun hlen ho hm => ?refused, loadProgram_closed bytes, fun w t h => ?stepped,
    fun hlen ho hm => ?accepted⟩
  case refused =>
    refine ⟨_, loadProgram_tooLong hlen ho hm, rfl, fun _ => rfl, fun u hu => ?_⟩
    obtain ⟨hr, hclosed, hsame⟩ := reaches_of_loadRefused rfl rfl hu
    exact ⟨fun w => ⟨stepRequest_of_loadRefused w hr, singleStepRequest_of_loadRefused w hr⟩,
      fun image => loadProgram_closed image (.inl hclosed), hsame⟩
  case stepped =>
    have hrun : runStep w s = .next t :=
      h.elim (fun h => (stepRequest_eq_next h).2.2) (fun h => (singleStepRequest_eq_next h).2.2)
    exact loadProgram_closed bytes (runStep_closes_load hrun)
  case accepted =>
    refine ⟨_, loadProgram_accepted hlen ho hm, fun k hk => ?_, fun a ha => ?_, rfl,
      congrArg (fun u : State => { u with loadOpen := s.loadOpen })
        (putBytes_frame bytes s programBase)⟩
    · refine (byteAt_putBytes bytes s 0x200 (0x200 + k)).trans ?_
      simp [hk]
    · refine (byteAt_putBytes bytes s 0x200 a).trans (dif_neg ?_)
      omega

/-! ### Timers, keys and `Redraw` (R214, R216 to R218) -/

/-- Settles O58. -/
theorem timersCountDownToZero : Obligations.TimersCountDownToZero :=
  fun s => ⟨⟨_, rfl, countDown_toNat s.dt, rfl⟩, ⟨_, rfl, countDown_toNat s.st, rfl⟩⟩

/-- Settles O60. -/
theorem hostSetsKeysAndClearsRedraw : Obligations.HostSetsKeysAndClearsRedraw := by
  refine fun s k p => ⟨⟨s.putKey k p, rfl, ?_, fun j hj => ?_, rfl⟩, ⟨_, rfl, rfl, rfl⟩⟩
  · rw [keyDown_putKey, if_pos rfl]
  · rw [keyDown_putKey, if_neg hj]

end Sys2Proof.Machine
end

section
/-! SUPPORT. What a step leaves behind: the fault record (spec/60_exceptions.md R200, R203, R204) and the
timers (R213). -/

namespace Sys2Proof.Machine

/-! ### The fault record -/

/-- The record of a fault a handler raises: its entry state stands one instruction on, with the word of the
step in `IR` (R24, R36). -/
theorem raise_started_fault (s : State) (w : Word) (k : Trap) :
    (raise (s.started w) k).fault = some { kind := k, word := some w, startPc := s.pc } := by
  have hpc : (s.started w).pc - 2#16 = s.pc := BitVec.add_sub_cancel s.pc 2#16
  rw [raise_fault, hpc]
  rfl

/-- A step that ends in `Halted` records the word it obtained, if it obtained one, and where it began. -/
theorem runStep_halted_record {supplied : Option Word} {s t : State} (hm : s.mode ≠ .halted)
    (h : runStep supplied s = .next t) (ht : t.mode = .halted) :
    ∃ k, t.fault =
      some { kind := k, word := (obtainWord supplied s).toOption, startPc := s.pc } := by
  obtain ⟨k, hw, rfl⟩ | ⟨w, hw, ⟨k, rfl⟩ | ⟨i, u, _, _, hu, hend⟩⟩ := runStep_cases h
  · exact ⟨k, by rw [hw]; rfl⟩
  · exact ⟨k, by rw [hw]; rfl⟩
  · have hfault : u.mode = .halted ∧ t.fault = u.fault := by
      obtain ⟨hrun, rfl⟩ | ⟨hhalt, rfl⟩ := hend
      · exact absurd ht hrun
      · exact ⟨hhalt, rfl⟩
    obtain ⟨hhalt, hfault⟩ := hfault
    obtain ⟨k, rfl⟩ | he := exec_effect hu
    · exact ⟨k, by rw [hfault, hw, raise_started_fault]; rfl⟩
    · exact absurd ((effect_keeps_mode he).1.symm.trans hhalt) hm

/-- Settles O16: the word the step obtained is the supplied one, the one in memory, or none. -/
theorem faultRecordNamesTheStep : Obligations.FaultRecordNamesTheStep := by
  intro supplied s t hm h ht
  obtain ⟨k, hk⟩ := runStep_halted_record hm h ht
  refine ⟨_, hk, rfl, fun hsome => ?supplied, ?fetched⟩
  case supplied =>
    obtain ⟨w, rfl⟩ := Option.ne_none_iff_exists'.mp hsome
    rfl
  case fetched =>
    rintro rfl
    split
    · next hp => simp only [obtainWord_fetched s hp]; rfl
    · next hp => simp only [obtainWord_fetch_error s (Nat.lt_of_not_le hp)]; rfl

/-! ### The timers -/

theorem effect_dt {i : Instr} {s t : State} (h : Effect i s t) :
    t.dt = s.dt ∨ ∃ x, i = .ldDtVx x := by
  have hf := congrArg State.dt (restoreWritten_of_effect h)
  cases i with
  | ldDtVx x => exact .inr ⟨x, rfl⟩
  | _ => exact .inl hf

theorem effect_st {i : Instr} {s t : State} (h : Effect i s t) :
    t.st = s.st ∨ ∃ x, i = .ldStVx x := by
  have hf := congrArg State.st (restoreWritten_of_effect h)
  cases i with
  | ldStVx x => exact .inr ⟨x, rfl⟩
  | _ => exact .inl hf

/-- A word obtained is the supplied one, or else the one in memory (R86, R88). -/
theorem obtainWord_eq_ok {supplied : Option Word} {s : State} {w : Word}
    (h : obtainWord supplied s = .ok w) : w = supplied.getD s.wordAtPc := by
  cases supplied with
  | some v => exact (Except.ok.inj h).symm
  | none =>
    by_cases hp : s.pc.toNat ≤ 0xFFE
    · rw [obtainWord_fetched s hp] at h
      exact (Except.ok.inj h).symm
    · rw [obtainWord_fetch_error s (Nat.lt_of_not_le hp)] at h
      cases h

/-- A step, whatever the mode, leaves both timers alone or has the effect of the instruction its word decodes
to; where it faults, its writes are discarded. -/
theorem runStep_timers_or_effect {supplied : Option Word} {s t : State}
    (h : runStep supplied s = .next t) :
    (t.dt = s.dt ∧ t.st = s.st) ∨
      ∃ w i, obtainWord supplied s = .ok w ∧ decode w = .ok i ∧ Effect i (s.started w) t := by
  obtain ⟨k, _, rfl⟩ | ⟨w, hw, ⟨k, rfl⟩ | ⟨i, u, _, hd, hu, ⟨_, rfl⟩ | ⟨_, rfl⟩⟩⟩ := runStep_cases h
  · exact .inl ⟨rfl, rfl⟩
  · exact .inl ⟨rfl, rfl⟩
  · obtain ⟨k, rfl⟩ | he := exec_effect hu
    · exact .inl ⟨rfl, rfl⟩
    · exact .inr ⟨w, i, hw, hd, he⟩
  · exact .inl ⟨rfl, rfl⟩

/-- Settles O21. -/
theorem timersChangeOnlyByTheirLoads : Obligations.TimersChangeOnlyByTheirLoads := by
  intro supplied s t h
  obtain ⟨hdt, hst⟩ | ⟨w, i, hw, hd, he⟩ := runStep_timers_or_effect h
  · exact ⟨fun hne => absurd hdt hne, fun hne => absurd hst hne⟩
  · obtain rfl := obtainWord_eq_ok hw
    refine ⟨fun hne => ?dt, fun hne => ?st⟩
    case dt =>
      obtain ⟨x, rfl⟩ := (effect_dt he).resolve_left hne
      exact ⟨x, hd⟩
    case st =>
      obtain ⟨x, rfl⟩ := (effect_st he).resolve_left hne
      exact ⟨x, hd⟩

end Sys2Proof.Machine
end

section
/-! SUPPORT. No operation of a step reads the run mode, so a step does in `Paused` what it does in `Running`;
and Pause, Resume and SingleStep (spec/60_exceptions.md R209, R210, R212, R216). -/

namespace Sys2Proof.Machine

/-- `s` in run mode `m`. -/
def State.withMode (s : State) (m : Mode) : State := { s with mode := m }

theorem withMode_of_mode_eq {s : State} {m : Mode} (h : s.mode = m) : s.withMode m = s := by
  subst h
  rfl

/-! ### The shared operations -/

theorem setPc_withMode (s : State) (m : Mode) (a : Nat) :
    setPc (s.withMode m) a = (setPc s a).map (·.withMode m) := by
  by_cases ha : a ≤ 0xFFF
  · rw [setPc_ok s ha, setPc_ok _ ha]
    rfl
  · have ha := Nat.lt_of_not_le ha
    rw [setPc_error s ha, setPc_error _ ha]
    rfl

theorem skipIf_withMode (c : Bool) (s : State) (m : Mode) :
    skipIf c (s.withMode m) = (skipIf c s).map (·.withMode m) := by
  cases c with
  | false => rfl
  | true => exact setPc_withMode s m (s.pc.toNat + 2)

theorem memReadList_withMode (s : State) (m : Mode) (n : Nat) : ∀ a : Nat,
    memReadList (s.withMode m) a n = memReadList s a n := by
  induction n with
  | zero => intro a; rfl
  | succ n ih =>
    intro a
    have hread : memRead (s.withMode m) a = memRead s a := rfl
    simp only [memReadList, hread, ih]

theorem memWriteList_withMode (m : Mode) (bytes : List Byte) : ∀ (s : State) (a : Nat),
    memWriteList (s.withMode m) a bytes = (memWriteList s a bytes).map (·.withMode m) := by
  induction bytes with
  | nil => intro s a; rfl
  | cons b rest ih =>
    intro s a
    by_cases ha : a ≤ 0xFFF
    · simp only [memWriteList, memWrite_ok _ b ha]
      exact ih (s.putByte a b) (a + 1)
    · simp only [memWriteList, memWrite_error _ b (Nat.lt_of_not_le ha)]
      rfl

theorem setRegsFrom_withMode (m : Mode) (bytes : List Byte) : ∀ (s : State) (k : Nat),
    (s.withMode m).setRegsFrom k bytes = (s.setRegsFrom k bytes).withMode m := by
  induction bytes with
  | nil => intro s k; rfl
  | cons b rest ih => intro s k; exact ih (s.setReg (Fin.ofNat 16 k) b) (k + 1)

/-! ### One instruction -/

/-- The answers `o m` from `s` in each mode `m`, where `s` itself answers `t`: `t` again if it is a fault taken,
else `t` in that mode. -/
def AnswersInEveryMode (s t : State) (o : Mode → Host.Outcome State Fault Refusal) : Prop :=
  (∃ k, t = raise s k) ∧ (∀ m, o m = .next t) ∨ ∀ m, o m = .next (t.withMode m)

theorem deliver_withMode {s t : State} {r : Except Trap State} {r' : Mode → Except Trap State}
    (h : deliver s r = .next t) (hr : ∀ m, r' m = r.map (·.withMode m)) :
    AnswersInEveryMode s t fun m => deliver (s.withMode m) (r' m) := by
  obtain rfl := funext hr
  obtain rfl | ⟨k, rfl, rfl⟩ := deliver_eq_next h
  · exact .inr fun _ => rfl
  · exact .inl ⟨⟨k, rfl⟩, fun _ => rfl⟩

/-- SKP and SKNP: the query reads no mode, and the skip after it keeps the mode. -/
theorem keySkip_withMode {s t : State} {x : RegIndex} {c : Bool → Bool}
    (h : deliver s ((keyQuery x s).bind fun down => skipIf (c down) s) = .next t) :
    AnswersInEveryMode s t fun m => deliver (s.withMode m)
      ((keyQuery x (s.withMode m)).bind fun down => skipIf (c down) (s.withMode m)) := by
  refine deliver_withMode h fun m => ?_
  have hq : keyQuery x (s.withMode m) = keyQuery x s := rfl
  rw [hq]
  cases keyQuery x s with
  | error k => rfl
  | ok down => exact skipIf_withMode (c down) s m

/-- DRW and FX65, which make a state of a block they read. -/
theorem readBlock_withMode {s t : State} {a n : Nat} {f : List Byte → State}
    {f' : Mode → List Byte → State} (hf : ∀ m bytes, f' m bytes = (f bytes).withMode m)
    (h : deliver s ((memReadList s a n).map f) = .next t) :
    AnswersInEveryMode s t fun m =>
      deliver (s.withMode m) ((memReadList (s.withMode m) a n).map (f' m)) := by
  refine deliver_withMode h fun m => ?_
  rw [memReadList_withMode, funext (hf m)]
  cases memReadList s a n <;> rfl

theorem execRet_underflow {s : State} (h : s.sp = 0) :
    execRet s = .next (raise s .stackUnderflow) := if_pos h

theorem execCall_overflow (nnn : Addr12) {s : State} (h : s.sp = s.cfg.stackCapacity) :
    execCall nnn s = .next (raise s .stackOverflow) := if_pos h

theorem ret_withMode {s t : State} (h : execRet s = .next t) :
    AnswersInEveryMode s t fun m => execRet (s.withMode m) := by
  by_cases hsp : s.sp = 0
  · rw [execRet_underflow hsp] at h
    obtain rfl := Host.Outcome.next.inj h
    exact .inl ⟨⟨_, rfl⟩, fun m => execRet_underflow (s := s.withMode m) hsp⟩
  · cases hslot : s.slot s.sp with
    | none => simp [execRet, hsp, hslot] at h
    | some w =>
      have hslot' (m : Mode) : (s.withMode m).slot (s.withMode m).sp = some w := hslot
      have hsp' (m : Mode) : (s.withMode m).sp ≠ 0 := hsp
      simp only [execRet, if_neg hsp, hslot] at h
      simp only [execRet, if_neg (hsp' _), hslot']
      refine deliver_withMode h fun m => ?_
      rw [setPc_withMode]
      cases setPc s w.toNat <;> rfl

theorem call_withMode {nnn : Addr12} {s t : State} (h : execCall nnn s = .next t) :
    AnswersInEveryMode s t fun m => execCall nnn (s.withMode m) := by
  by_cases hfull : s.sp = s.cfg.stackCapacity
  · rw [execCall_overflow nnn hfull] at h
    obtain rfl := Host.Outcome.next.inj h
    exact .inl ⟨⟨_, rfl⟩, fun m => execCall_overflow nnn (s := s.withMode m) hfull⟩
  · by_cases hroom : s.sp < s.stack.length
    · rw [execCall_ok nnn s hfull hroom] at h
      obtain rfl := Host.Outcome.next.inj h
      exact .inr fun m => execCall_ok nnn (s.withMode m) hfull hroom
    · rw [execCall_noSlot nnn (Nat.le_of_not_lt hroom) hfull] at h
      cases h

/-- FX0A: which key is pressed does not depend on the mode. -/
theorem ldVxK_withMode {x : RegIndex} {s t : State} (h : execLdVxK x s = .next t) :
    AnswersInEveryMode s t fun m => execLdVxK x (s.withMode m) := by
  have hkey (m : Mode) : (s.withMode m).lowestKey = s.lowestKey := rfl
  cases hk : s.lowestKey with
  | none =>
    simp only [execLdVxK, hkey, hk] at h ⊢
    exact deliver_withMode h (setPc_withMode s · _)
  | some k =>
    simp only [execLdVxK, hkey, hk] at h ⊢
    obtain rfl := Host.Outcome.next.inj h
    exact .inr fun _ => rfl

/-- No instruction's meaning reads the run mode. -/
theorem exec_withMode {i : Instr} {s t : State} (h : exec i s = .next t) :
    AnswersInEveryMode s t fun m => exec i (s.withMode m) := by
  cases i with
  | ret => exact ret_withMode h
  | call nnn => exact call_withMode h
  | jp nnn | jpV0 nnn => exact deliver_withMode h (setPc_withMode s · _)
  | seImm x nn | sneImm x nn | seReg x y | sneReg x y =>
    exact deliver_withMode h fun m => skipIf_withMode _ s m
  | skp x => exact keySkip_withMode (c := id) h
  | sknp x => exact keySkip_withMode (c := not) h
  | drw x y n => exact readBlock_withMode (fun _ _ => rfl) h
  | ldVxMem x => exact readBlock_withMode (fun m bytes => setRegsFrom_withMode m bytes s 0) h
  | ldBVx x | ldMemVx x => exact deliver_withMode h (memWriteList_withMode · _ s _)
  | ldVxK x => exact ldVxK_withMode h
  | _ =>
    obtain rfl := Host.Outcome.next.inj h
    exact .inr fun _ => rfl

/-! ### The step -/

/-- How a step that ends in `t` ends from mode `m`: both in `Halted` with one record, or in the same state but
for the mode. -/
def StepEndsAlike (m : Mode) (s t u : State) : Prop :=
  t.mode = .halted ∧ u.mode = .halted ∧ t.fault = u.fault ∨ t.mode = s.mode ∧ u = t.withMode m

theorem dispatchWord_withMode {m : Mode} {s t : State} {w : Word} (hs : s.mode ≠ .halted)
    (hm : m ≠ .halted) (h : dispatchWord s w (s.started w) = .next t) :
    ∃ u, dispatchWord (s.withMode m) w ((s.started w).withMode m) = .next u ∧
      StepEndsAlike m s t u := by
  cases hd : decode w with
  | error e =>
    rw [dispatchWord_error hd] at h
    obtain rfl := Host.Outcome.next.inj h
    exact ⟨_, dispatchWord_error hd, .inl ⟨rfl, rfl, rfl⟩⟩
  | ok i =>
    rw [dispatchWord_ok hd] at h ⊢
    obtain ⟨v, hv, hend⟩ := settle_eq_next h
    obtain ⟨⟨k, rfl⟩, hsame⟩ | hmoved := exec_withMode hv
    case inl =>
      obtain ⟨hrun, _⟩ | ⟨_, rfl⟩ := hend
      · exact absurd rfl hrun
      · exact ⟨_, (congrArg (settle _) (hsame m)).trans (settle_halted _ _ rfl), .inl ⟨rfl, rfl, rfl⟩⟩
    case inr =>
      have hself : v = v.withMode s.mode := Host.Outcome.next.inj (hv.symm.trans (hmoved s.mode))
      have hmode : v.mode = s.mode := (congrArg State.mode hself :)
      obtain ⟨_, rfl⟩ | ⟨hhalt, _⟩ := hend
      · exact ⟨_, (congrArg (settle _) (hmoved m)).trans (settle_next _ _ hm), .inr ⟨hmode, rfl⟩⟩
      · exact absurd (hmode.symm.trans hhalt) hs

/-- A step does in any mode but `Halted` what it does in another. -/
theorem runStep_withMode {m : Mode} {supplied : Option Word} {s t : State} (hs : s.mode ≠ .halted)
    (hm : m ≠ .halted) (h : runStep supplied s = .next t) :
    ∃ u, runStep supplied (s.withMode m) = .next u ∧ StepEndsAlike m s t u := by
  have hword : obtainWord supplied (s.withMode m) = obtainWord supplied s := rfl
  cases hw : obtainWord supplied s with
  | error k =>
    rw [runStep_fetch_fault hw] at h
    obtain rfl := Host.Outcome.next.inj h
    exact ⟨_, runStep_fetch_fault (hword.trans hw), .inl ⟨rfl, rfl, rfl⟩⟩
  | ok w =>
    by_cases hp : s.pc.toNat ≤ 0xFFD
    · rw [runStep_dispatch hw hp] at h
      rw [runStep_dispatch (s := s.withMode m) (hword.trans hw) hp]
      exact dispatchWord_withMode hs hm h
    · have hp := Nat.lt_of_not_le hp
      rw [runStep_advance_fault hw hp] at h
      obtain rfl := Host.Outcome.next.inj h
      exact ⟨_, runStep_advance_fault (s := s.withMode m) (hword.trans hw) hp,
        .inl ⟨rfl, rfl, rfl⟩⟩

/-! ### Pause, Resume and SingleStep -/

theorem stepRequest_of_paused (w : Option Word) {s : State} (h : s.mode = .paused) :
    stepRequest w s = .refused .paused := by
  simp only [stepRequest, h]

theorem singleStepRequest_of_running (w : Option Word) {s : State} (h : s.mode = .running) :
    singleStepRequest w s = .refused .notPaused := by
  simp only [singleStepRequest, h]

/-- A single step in `Paused` is the step of the machine in `Running`, back in `Paused` unless it faulted
(R212). -/
theorem singleStep_is_step_in_running {w : Option Word} {s t : State} (hm : s.mode = .paused)
    (h : singleStepRequest w s = .next t) :
    ∃ u, stepRequest w { s with mode := .running } = .next u ∧
      (t.mode = .halted ∧ u.mode = .halted ∧ t.fault = u.fault ∨
        t.mode = .paused ∧ t = { u with mode := .paused }) := by
  obtain ⟨_, hl, hrun⟩ := singleStepRequest_eq_next h
  obtain ⟨u, hu, hends⟩ := runStep_withMode (m := .running) (by simp [hm]) (by decide) hrun
  refine ⟨u, (stepRequest_of_running (s := s.withMode .running) rfl hl).trans hu, ?_⟩
  obtain hhalted | ⟨hmode, rfl⟩ := hends
  · exact .inl hhalted
  · have hpaused := hmode.trans hm
    exact .inr ⟨hpaused, (withMode_of_mode_eq hpaused).symm⟩

/-- Settles O19: `singleStep_is_step_in_running` rests on no operation of a step reading the mode. -/
theorem pauseResumeAndSingleStep : Obligations.PauseResumeAndSingleStep :=
  fun _ => ⟨fun hm => ⟨pauseRequest_of_running hm, fun w => singleStepRequest_of_running w hm⟩,
    fun hm => ⟨resumeRequest_of_paused hm, stepRequest_of_paused none hm,
      fun w => stepRequest_of_paused w hm, fun _ _ => singleStep_is_step_in_running hm⟩⟩

end Sys2Proof.Machine
end
